-- ==== Sys2Proof/Word.lean ====
section
/-! DEFINITION. The word types of the block (spec 00_scope.md R10, 10_state.md R41, 30_encoding.md R87)
and the coded form of one instruction as it is written down: an event word, or a symbol on the serial wire. -/

namespace Sys2Proof

/-- A byte of the serial wire, of the shift register or of the latch (10_state.md R27, R32). -/
abbrev Byte := BitVec 8

/-- An event word, format `EVT` (30_encoding.md R87). -/
abbrev EventWord := BitVec 16

/-- The number of a host register: 6 bits (20_memory.md R60). -/
abbrev RegNum := BitVec 6

/-- The data of one host register access: 16 bits (10_state.md R41). -/
abbrev RegData := BitVec 16

/-- A brightness register: 7 bits, legal values 0 to 100 (10_state.md R21, R22). -/
abbrev Dim := BitVec 7

/-- A counter or compare register, held in 16 bits. A channel of width `W` uses its low `W` bits
(10_state.md R24, R25). -/
abbrev TimerReg := BitVec 16

/-- The bits of one instruction with the format they are written in: an event word (30_encoding.md R87),
an address byte (R81), a data byte (R83), or the bit of an acknowledge clock (R82). The four are distinct
formats: which of them the wire carries next is fixed by the receiver and not by the bits (R92). -/
inductive Code where
  | evt   (w : EventWord)
  | addr8 (b : Byte)
  | data8 (b : Byte)
  | ack1  (b : Bool)
  deriving DecidableEq, Repr

end Sys2Proof
end

