-- ==== Sys2Proof/Config.lean ====
section
/-! DEFINITION. The parameter record of the block (spec 00_scope.md R7), its reference values, and the
values the spec leaves open. -/

namespace Sys2Proof

/-- Which edge of `zc_in` is a zero-cross event (00_scope.md R7, `ZC_EDGE_SEL`). -/
inductive EdgeSel where
  | rising
  | falling
  | both
  deriving DecidableEq, Repr

/-- What becomes of a compare value too wide for its register (00_scope.md R7, `OVF_POLICY`). -/
inductive OvfPolicy where
  | refuse
  | truncate
  | saturate
  deriving DecidableEq, Repr

/-- The parameter record `cfg` (00_scope.md R7). Its numbers are plain naturals, so that an ill-formed
record can be written and refused (R8). Pin assignments are not modelled (R7). -/
structure Config where
  /-- `N_CH` -/
  nCh : Nat
  /-- `AC_DIM_MIN_PERCENT`, `MIN` -/
  minPct : Nat
  /-- `AC_DIM_MAX_PERCENT`, `MAX` -/
  maxPct : Nat
  /-- `SLAVE_ADDR` -/
  slaveAddr : Nat
  /-- `PKT_SIZE` -/
  pktSize : Nat
  /-- `F_CLK` -/
  fClk : Nat
  /-- `PRESCALER` -/
  prescaler : Nat
  /-- `K_STEP` -/
  kStep : Nat
  /-- `W`, one width per channel -/
  w : List Nat
  /-- `ZC_EDGE_SEL` -/
  zcEdge : EdgeSel
  /-- `P_STOP_IRQ` -/
  pStopIrq : Bool
  /-- `OVF_POLICY` -/
  ovf : OvfPolicy
  deriving DecidableEq, Repr

/-- The reference configuration REF (00_scope.md R7, column REF; log 1, DESIGN CHOICE). -/
def Config.ref : Config where
  nCh := 3
  minPct := 20
  maxPct := 95
  slaveAddr := 0x6A
  pktSize := 2
  fClk := 1000000
  prescaler := 64
  kStep := 10000
  w := [8, 8, 8]
  zcEdge := .rising
  pStopIrq := false
  ovf := .refuse

/-- REF with another system clock and other register widths (00_scope.md R9). -/
def Config.refWith (fClk : Nat) (w : List Nat) : Config := { Config.ref with fClk := fClk, w := w }

/-- `W[ch]`; 0, which is no legal width, for a channel the record gives none (00_scope.md R7). -/
def Config.width (cfg : Config) (ch : Nat) : Nat := cfg.w.getD ch 0

/-- FREE VALUE (log 4, DESIGN CHOICE): what `sr` and `rx_data` hold after a reset, by draw number. The spec
gives none and forbids 0 by fiat (10_state.md R27, R32; 20_memory.md R61; 93_implementation_defined.md U5). -/
opaque Config.freeByte : Nat → Byte

/-- FREE VALUE (log 7, DESIGN CHOICE): which order events coinciding in one sample are served in, by draw
number. The spec gives none and admits every order (60_exceptions.md R198). -/
opaque Config.eventOrder : Nat → Nat

end Sys2Proof
end

