-- ==== Sys2Proof/Machine/Operands.lean ====
section
/-! DEFINITION. Every operand form: the fields of an event word (spec 30_encoding.md R87, R89), the fields of
an address byte (R81), the number of a host register (10_state.md R41) and the clamps of a brightness
(41_phase_timer.md R125, 43_host_consumer.md R173, R178). -/

namespace Sys2Proof.Machine

/-- `op = word[15:12]` (30_encoding.md R87). -/
def evtOp (w : EventWord) : BitVec 4 := w.extractLsb' 12 4

/-- `z = word[11:10]` (30_encoding.md R87). -/
def evtZ (w : EventWord) : BitVec 2 := w.extractLsb' 10 2

/-- `ch = word[9:8]` (30_encoding.md R87, R89). -/
def evtCh (w : EventWord) : BitVec 2 := w.extractLsb' 8 2

/-- `d = word[7:0]` (30_encoding.md R87, R89). -/
def evtD (w : EventWord) : Byte := w.extractLsb' 0 8

/-- The event word with these fields and `z = 0`: `0x1000*op + 0x100*ch + d` (30_encoding.md R87, R88). -/
def evtWord (op : BitVec 4) (ch : BitVec 2) (d : Byte) : EventWord :=
  BitVec.ofNat 16 (0x1000 * op.toNat + 0x100 * ch.toNat + d.toNat)

/-- The operand byte of a 1-bit operand: `d[0]` is the operand and `d[7:1]` is 0 (30_encoding.md R87). -/
def bitByte (b : Bool) : Byte := 0#7 ++ BitVec.ofBool b

/-- The operand byte of `RD`: `d[5:0]` is the register number and `d[7:6]` is 0 (30_encoding.md R87). -/
def regByte (n : RegNum) : Byte := 0#2 ++ n

/-- The address byte with address bits [7:1] and read/write flag [0] (30_encoding.md R81). -/
def addrByte (addr : BitVec 7) (rw : Bool) : Byte := addr ++ BitVec.ofBool rw

/-- Bits [7:1] of an address byte (30_encoding.md R81). -/
def addrField (b : Byte) : BitVec 7 := b.extractLsb' 1 7

/-- Bit [0] of an address byte, the read/write flag (30_encoding.md R81). -/
def rwField (b : Byte) : Bool := b.getLsbD 0

/-- A byte of the wire is addressed to this block: `addr == SLAVE_ADDR`, whatever `rw` is
(30_encoding.md R81). -/
def addressed (cfg : Config) (b : Byte) : Bool := (addrField b).toNat == cfg.slaveAddr

/-- The registers of the host register space (10_state.md R41). -/
inductive HostReg where
  | ctrl
  | flags
  | ssrStat
  | rxData
  | ssrCnt
  | sr
  | rxTake
  | reqDim (ch : Nat)
  | appDim (ch : Nat)
  | cmp (ch : Nat)
  | cnt (ch : Nat)
  deriving DecidableEq, Repr

/-- The per-channel registers `0x10 + ch` to `0x1C + ch`, `ch < N_CH` (10_state.md R41, 20_memory.md R69). -/
def channelReg (nCh : Nat) (k : Nat) : Option HostReg :=
  if k % 4 < nCh then
    match k / 4 with
    | 4 => some (.reqDim (k % 4))
    | 5 => some (.appDim (k % 4))
    | 6 => some (.cmp (k % 4))
    | 7 => some (.cnt (k % 4))
    | _ => none
  else none

/-- The register a number names; none where the number holds no register under this `N_CH`
(10_state.md R41). -/
def hostReg (nCh : Nat) (n : RegNum) : Option HostReg :=
  match n.toNat with
  | 0 => some .ctrl
  | 1 => some .flags
  | 2 => some .ssrStat
  | 3 => some .rxData
  | 4 => some .ssrCnt
  | 5 => some .sr
  | 6 => some .rxTake
  | k => channelReg nCh k

/-- `clamp(v, lo, hi)` (00_scope.md R10). -/
def clamp (v lo hi : Nat) : Nat := max lo (min v hi)

/-- `min(v, 100)` as the 7-bit register holds it (43_host_consumer.md R173). -/
def requestValue (v : Nat) : Dim := BitVec.ofNat 7 (min v 100)

/-- The sentinel clamp `clamp(min(d,100), MIN-1, MAX+1)` (43_host_consumer.md R178). -/
def sentinelClamp (cfg : Config) (d : Nat) : Nat :=
  clamp (min d 100) (cfg.minPct - 1) (cfg.maxPct + 1)

end Sys2Proof.Machine
end

