-- ==== Sys2Proof/Syntax.lean ====
section
/-! DEFINITION. The instructions: one constructor per row of spec/opcode_table.json, in the table's order.
An instruction of this block is an operation (00_scope.md R3, R14); the table adds the three reserved
operation codes (30_encoding.md R90) and the four symbols of the serial wire (R81 to R83). -/

namespace Sys2Proof

/-- One row of the opcode table, with its operands (30_encoding.md R88, R89). A 1-bit operand is a Bool,
since the spec's Booleans are the 1-bit values (00_scope.md R10). -/
inductive Instr where
  /-- `RESET` (43_host_consumer.md R170) -/
  | reset
  /-- `INIT` (R171) -/
  | init
  /-- `ZC` (40_zero_cross.md R111) -/
  | zc
  /-- `TICK` (41_phase_timer.md R121) -/
  | tick
  /-- `CM ch` (R122) -/
  | cm (ch : BitVec 2)
  /-- `START s` (42_serial_receiver.md R142) -/
  | start (s : Bool)
  /-- `STOP` (R143) -/
  | stop
  /-- `RISE b` (R144) -/
  | rise (b : Bool)
  /-- `FALL` (R145) -/
  | fall
  /-- `BB` (R146) -/
  | bb
  /-- `REQWR ch, v` (43_host_consumer.md R173) -/
  | reqwr (ch : BitVec 2) (v : Byte)
  /-- `RXTAKE` (R174) -/
  | rxtake
  /-- `RD n` (R172) -/
  | rd (n : RegNum)
  /-- operation code 0xD, reserved (30_encoding.md R90) -/
  | reservedD (x : BitVec 12)
  /-- operation code 0xE, reserved (R90) -/
  | reservedE (x : BitVec 12)
  /-- operation code 0xF, reserved (R90) -/
  | reservedF (x : BitVec 12)
  /-- an address byte whose address is `SLAVE_ADDR` (R81) -/
  | wireAddrMatch (rw : Bool)
  /-- an address byte with another address (R81) -/
  | wireAddrMismatch (addr : BitVec 7) (rw : Bool)
  /-- a data byte (R83) -/
  | wireData (d : Byte)
  /-- the acknowledge bit (R82) -/
  | wireAck
  deriving DecidableEq, Repr

end Sys2Proof
end

