-- ==== Sys2Proof/WellFormed.lean ====
section
/-! DEFINITION. When an instruction is well formed under a parameter record: the operand ranges of spec
30_encoding.md R88 to R90 and, for a wire symbol, the row of the table its byte belongs to (R81). -/

namespace Sys2Proof

/-- A well-formed instruction: its channel exists (30_encoding.md R90), its register exists (R90), it is not
a reserved operation code (R90), and an address byte written as a mismatch does not match (R81). -/
def Instr.wf (cfg : Config) : Instr → Bool
  | .reset => true
  | .init => true
  | .zc => true
  | .tick => true
  | .cm ch => decide (ch.toNat < cfg.nCh)
  | .start _ => true
  | .stop => true
  | .rise _ => true
  | .fall => true
  | .bb => true
  | .reqwr ch _ => decide (ch.toNat < cfg.nCh)
  | .rxtake => true
  | .rd n => (Machine.hostReg cfg.nCh n).isSome
  | .reservedD _ => false
  | .reservedE _ => false
  | .reservedF _ => false
  | .wireAddrMatch _ => true
  | .wireAddrMismatch addr _ => addr.toNat != cfg.slaveAddr
  | .wireData _ => true
  | .wireAck => true

end Sys2Proof
end

