-- ==== Sys2Proof/Decode.lean ====
section
/-! DEFINITION. The decoder, total on every code and refusing by name (spec 30_encoding.md R87 to R92), and
the encoder, both from the encoding tables of R81 to R83 and R88. -/

namespace Sys2Proof

/-- Why a code is refused (30_encoding.md R90). R90 gives no precedence among its reasons; of a word that is illegal
for several the decoder names the first in the order of the first four constructors (log 17, DESIGN CHOICE). -/
inductive Illegal where
  /-- the operation code is 0xD, 0xE or 0xF -/
  | reservedOp (op : Nat)
  /-- a field that must be 0 is not -/
  | fieldNotZero
  /-- `ch >= N_CH` in `CM` or `REQWR` -/
  | noSuchChannel (ch : Nat)
  /-- the number in `RD` holds no register -/
  | noSuchRegister (n : RegNum)
  /-- a 1 in the clock of an acknowledge: no symbol of the table (R82) -/
  | notAcknowledge
  deriving DecidableEq, Repr

/-- An operation without operands: `z`, `ch` and `d` must be 0 (30_encoding.md R87). -/
def decodePlain (w : EventWord) (i : Instr) : Except Illegal Instr :=
  if Machine.evtZ w = 0 ∧ Machine.evtCh w = 0 ∧ Machine.evtD w = 0 then .ok i else .error .fieldNotZero

/-- An operation with a 1-bit operand: `d[0]`, and `d[7:1]` must be 0 (30_encoding.md R87). -/
def decodeBit (w : EventWord) (f : Bool → Instr) : Except Illegal Instr :=
  if Machine.evtZ w = 0 ∧ Machine.evtCh w = 0 ∧ (Machine.evtD w).extractLsb' 1 7 = 0 then
    .ok (f ((Machine.evtD w).getLsbD 0))
  else .error .fieldNotZero

/-- `CM ch` (30_encoding.md R88, R90). Of two reasons a field that is not 0 is named before the channel (log 17, DESIGN
CHOICE). -/
def decodeCm (cfg : Config) (w : EventWord) : Except Illegal Instr :=
  if Machine.evtZ w = 0 ∧ Machine.evtD w = 0 then
    if (Machine.evtCh w).toNat < cfg.nCh then .ok (.cm (Machine.evtCh w))
    else .error (.noSuchChannel (Machine.evtCh w).toNat)
  else .error .fieldNotZero

/-- `REQWR ch, v` (30_encoding.md R88, R90). Of two reasons a field that is not 0 is named before the channel (log 17,
DESIGN CHOICE). -/
def decodeReqwr (cfg : Config) (w : EventWord) : Except Illegal Instr :=
  if Machine.evtZ w = 0 then
    if (Machine.evtCh w).toNat < cfg.nCh then .ok (.reqwr (Machine.evtCh w) (Machine.evtD w))
    else .error (.noSuchChannel (Machine.evtCh w).toNat)
  else .error .fieldNotZero

/-- `RD n` (30_encoding.md R88, R90). Of two reasons a field that is not 0 is named before the register (log 17, DESIGN
CHOICE). -/
def decodeRd (cfg : Config) (w : EventWord) : Except Illegal Instr :=
  if Machine.evtZ w = 0 ∧ Machine.evtCh w = 0 ∧ (Machine.evtD w).extractLsb' 6 2 = 0 then
    if (Machine.hostReg cfg.nCh ((Machine.evtD w).extractLsb' 0 6)).isSome then
      .ok (.rd ((Machine.evtD w).extractLsb' 0 6))
    else .error (.noSuchRegister ((Machine.evtD w).extractLsb' 0 6))
  else .error .fieldNotZero

/-- The event word decoder, by operation code (30_encoding.md R88, R90). -/
def decodeEvent (cfg : Config) (w : EventWord) : Except Illegal Instr :=
  match (Machine.evtOp w).toNat with
  | 0x0 => decodePlain w .reset
  | 0x1 => decodePlain w .init
  | 0x2 => decodePlain w .zc
  | 0x3 => decodePlain w .tick
  | 0x4 => decodeCm cfg w
  | 0x5 => decodeBit w .start
  | 0x6 => decodePlain w .stop
  | 0x7 => decodeBit w .rise
  | 0x8 => decodePlain w .fall
  | 0x9 => decodePlain w .bb
  | 0xA => decodeReqwr cfg w
  | 0xB => decodePlain w .rxtake
  | 0xC => decodeRd cfg w
  | op => .error (.reservedOp op)

/-- An address byte is a match or a mismatch, nothing else (30_encoding.md R81, R91). -/
def decodeAddr (cfg : Config) (b : Byte) : Instr :=
  if Machine.addressed cfg b then .wireAddrMatch (Machine.rwField b)
  else .wireAddrMismatch (Machine.addrField b) (Machine.rwField b)

/-- The decoder (30_encoding.md R81 to R83, R88, R90). -/
def decode (cfg : Config) : Code → Except Illegal Instr
  | .evt w => decodeEvent cfg w
  | .addr8 b => .ok (decodeAddr cfg b)
  | .data8 b => .ok (.wireData b)
  | .ack1 false => .ok .wireAck
  | .ack1 true => .error .notAcknowledge

/-- The encoder, from the tables of 30_encoding.md R88 and R81 to R83. -/
def encode (cfg : Config) : Instr → Code
  | .reset => .evt (Machine.evtWord 0x0 0 0)
  | .init => .evt (Machine.evtWord 0x1 0 0)
  | .zc => .evt (Machine.evtWord 0x2 0 0)
  | .tick => .evt (Machine.evtWord 0x3 0 0)
  | .cm ch => .evt (Machine.evtWord 0x4 ch 0)
  | .start s => .evt (Machine.evtWord 0x5 0 (Machine.bitByte s))
  | .stop => .evt (Machine.evtWord 0x6 0 0)
  | .rise b => .evt (Machine.evtWord 0x7 0 (Machine.bitByte b))
  | .fall => .evt (Machine.evtWord 0x8 0 0)
  | .bb => .evt (Machine.evtWord 0x9 0 0)
  | .reqwr ch v => .evt (Machine.evtWord 0xA ch v)
  | .rxtake => .evt (Machine.evtWord 0xB 0 0)
  | .rd n => .evt (Machine.evtWord 0xC 0 (Machine.regByte n))
  | .reservedD x => .evt (0xD#4 ++ x)
  | .reservedE x => .evt (0xE#4 ++ x)
  | .reservedF x => .evt (0xF#4 ++ x)
  | .wireAddrMatch rw => .addr8 (Machine.addrByte (BitVec.ofNat 7 cfg.slaveAddr) rw)
  | .wireAddrMismatch addr rw => .addr8 (Machine.addrByte addr rw)
  | .wireData d => .data8 d
  | .wireAck => .ack1 false

/-- The code of a table word of `nbits` bits. Rows of 16 bits are event words. The rows of the wire are
shorter, and their bits alone do not say which symbol they are (30_encoding.md R92): the more specific row is
taken, so a word of all zeros is the acknowledge bit, a byte that carries `SLAVE_ADDR` an address byte, any
other a data byte (log 9, DESIGN CHOICE). -/
def tableCode (cfg : Config) (nbits w : Nat) : Code :=
  if 8 < nbits then .evt (BitVec.ofNat 16 w)
  else if nbits = 1 ∨ w = 0 then .ack1 (w % 2 == 1)
  else if Machine.addressed cfg (BitVec.ofNat 8 w) then .addr8 (BitVec.ofNat 8 w)
  else .data8 (BitVec.ofNat 8 w)

/-- The instruction this decoder reads from a word of the opcode table, under REF. -/
def decodeTableWord (nbits w : Nat) : Option Instr :=
  match decode Config.ref (tableCode Config.ref nbits w) with
  | .ok i => some i
  | .error _ => none

end Sys2Proof
end

