-- ==== Sys2Proof/Machine/Translator.lean ====
section
/-! DEFINITION. The dim-to-delay translator XLT: `DELAY` and `CMPVAL` (spec 41_phase_timer.md R125, R127), and
the check `ConfigOK` of the parameter record, which rests on it (00_scope.md R8), and the records a model with
`PKTAPPLY` runs (93_implementation_defined.md U13). -/

namespace Sys2Proof.Machine

/-- `DELAY(d)`, exact: one product, one product in the divisor, one division rounding toward zero
(41_phase_timer.md R125). -/
def delay (cfg : Config) (d : Nat) : Nat :=
  (100 - clamp d 0 100) * cfg.fClk / (cfg.prescaler * cfg.kStep)

/-- `CMPVAL(ch, d)` (41_phase_timer.md R127). -/
def cmpVal (cfg : Config) (ch d : Nat) : Nat :=
  match cfg.ovf with
  | .refuse => delay cfg d
  | .truncate => delay cfg d % 2 ^ cfg.width ch
  | .saturate => min (delay cfg d) (2 ^ cfg.width ch - 1)

/-- The value `CMPVAL(ch, d)` as the compare register holds it; for a well-formed record it fits
(41_phase_timer.md R127). -/
def cmpReg (cfg : Config) (ch d : Nat) : TimerReg := BitVec.ofNat 16 (cmpVal cfg ch d)

/-- The clauses of `ConfigOK` but for the width of the compare value (00_scope.md R8). -/
def rangesOK (cfg : Config) : Bool :=
  decide (1 ≤ cfg.nCh ∧ cfg.nCh ≤ 3) && decide (1 ≤ cfg.minPct ∧ cfg.minPct < cfg.maxPct ∧ cfg.maxPct ≤ 99)
    && decide (cfg.slaveAddr ≤ 127) && decide (1 ≤ cfg.pktSize) && decide (1 ≤ cfg.fClk)
    && decide (1 ≤ cfg.prescaler) && decide (1 ≤ cfg.kStep)
    && (List.range cfg.nCh).all fun ch => cfg.width ch == 8 || cfg.width ch == 16

/-- The first channel whose `DELAY(0)` does not fit its compare register under `OVF_POLICY = refuse`
(00_scope.md R8; condition `CmpOverflow` of 60_exceptions.md R190). R190 says "some channel" and records "the
channel"; where several overflow, the lowest-numbered is the one named (log 15, DESIGN CHOICE). -/
def overflowChannel (cfg : Config) : Option Nat :=
  match cfg.ovf with
  | .refuse => (List.range cfg.nCh).find? fun ch => decide (2 ^ cfg.width ch ≤ delay cfg 0)
  | .truncate => none
  | .saturate => none

/-- `ConfigOK(cfg)` (00_scope.md R8). -/
def configOK (cfg : Config) : Bool := rangesOK cfg && (overflowChannel cfg).isNone

/-- The records this model runs: the well-formed ones with the one packet layout there is, since it includes
`PKTAPPLY` (00_scope.md R8; 43_host_consumer.md R177; 93_implementation_defined.md U13). -/
def recordOK (cfg : Config) : Bool := configOK cfg && cfg.pktSize == 2

end Sys2Proof.Machine
end

