-- ==== Sys2Proof/Machine/State.lean ====
section
/-! DEFINITION. The state of the machine, as plain data: all the spec names (10_state.md R20 to R40), the
host's own process (43_host_consumer.md R175, R177), and the model's own fields (the parameter record, the
inputs still to come, the values host reads returned, the counter of free values), with its value after reset
(10_state.md R43) and the reasons a step can stop. -/

namespace Sys2Proof.Machine

/-- `ssr_state`, the sequencer state (10_state.md R30). Its value 3 cannot be expressed
(93_implementation_defined.md U6). -/
inductive SsrState where
  | checkAddress
  | recvDataWait
  | recvDataAckSend
  deriving DecidableEq, Repr

/-- `ssr_mode` (10_state.md R31). -/
inductive SsrMode where
  | startOnly
  | counting
  deriving DecidableEq, Repr

/-- `rx_status` (10_state.md R33). -/
inductive RxStatus where
  | terminated
  | pending
  | received
  deriving DecidableEq, Repr

/-- The fail-silent conditions, with the information recorded (60_exceptions.md R190). `CmpOverflow`, code 5,
is a check of the parameter record and no run-time condition: it is `Refusal.cmpOverflow`. -/
inductive Condition where
  | zcOverrun
  | rxOverrun (byte : Byte)
  | badIndex (index : Byte)
  | shortPacket (count : Nat)
  deriving DecidableEq, Repr

/-- One channel: its share of the channel state store (10_state.md R20 to R23), its timer unit (R24, R25) and
its enable (R34). -/
structure Chan where
  zcp : Bool
  applied : Dim
  requested : Dim
  drive : Bool
  cnt : TimerReg
  cmp : TimerReg
  cmEn : Bool
  deriving DecidableEq, Repr

/-- The registers of the serial receiver (10_state.md R27 to R33). -/
structure Ssr where
  state : SsrState
  mode : SsrMode
  sr : Byte
  bitCnt : BitVec 4
  bitTarget : BitVec 4
  sdaDrive : Bool
  rxData : Byte
  rxStatus : RxStatus
  deriving DecidableEq, Repr

/-- The input pins that have a level (10_state.md R40) and the line history of the pin front end (R37). -/
structure Front where
  zcIn : Bool
  scl : Bool
  sdaIn : Bool
  zcPrev : Bool
  sclPrev : Bool
  sdaPrev : Bool
  startPending : Bool
  deriving DecidableEq, Repr

/-- Ghost state, read by no operation (10_state.md R38). That the model keeps it is log 12, DESIGN CHOICE. The log
is oldest first. -/
structure Ghost where
  zcDropped : Nat
  rxDropped : Nat
  log : List Condition
  deriving DecidableEq, Repr

/-- One value a host read returned, with the register it came from (20_memory.md R61). -/
structure HostRead where
  reg : RegNum
  data : RegData
  deriving DecidableEq, Repr

/-- The host's own process: its call of `receive_packet(buf, size)` (43_host_consumer.md R175), whether that
call is still running, and whether it stands inside the consumer loop (R177). `count` is the length of
`buf`. -/
structure HostProc where
  consumer : Bool
  running : Bool
  size : Nat
  buf : List Byte
  deriving DecidableEq, Repr

/-- One sample of the input ports: `rst` asserted, a `tick` pulse, and the levels of the three lines
(10_state.md R40, 30_encoding.md R96). -/
structure Sample where
  rst : Bool
  tick : Bool
  zcIn : Bool
  scl : Bool
  sdaIn : Bool
  deriving DecidableEq, Repr

/-- One change at one input port, as the rows of 30_encoding.md R96 list them. -/
inductive PortEvent where
  | rst
  | tick
  | zcIn (level : Bool)
  | scl (level : Bool)
  | sdaIn (level : Bool)
  deriving DecidableEq, Repr

/-- One input of the environment (00_scope.md R13, R14): a coded instruction (an event word or a wire
symbol), a sample of the pins (30_encoding.md R96), an access to the host port (20_memory.md R61), a call of
`receive_packet` (43_host_consumer.md R175), the start of the consumer loop (R177), or one step of the host's
process. -/
inductive Input where
  | code (c : Code)
  | sample (p : Sample)
  | hostRead (n : RegNum)
  | hostWrite (n : RegNum) (v : RegData)
  | recvPacket (size : Nat)
  | consumer
  | hostStep
  deriving DecidableEq, Repr

/-- The state. `cfg`, `reads`, `draws`, `ports`, `trace` and `pos` are the model's own fields (logs 1, 2, 4, 5
and 7, each DESIGN CHOICE); `host` is the host's process (log 8, DESIGN CHOICE); the rest is the spec's. -/
structure State where
  /-- the parameter record every rule takes (00_scope.md R7); written by nothing -/
  cfg : Config
  zcEn : Bool
  ssrEn : Bool
  /-- the `N_CH` channels -/
  chans : List Chan
  ssr : Ssr
  front : Front
  ghost : Ghost
  host : HostProc
  /-- what host reads returned, oldest first (00_scope.md R15) -/
  reads : List HostRead
  /-- how many free values have been drawn -/
  draws : Nat
  /-- the changes of the last sample that are not yet served -/
  ports : List PortEvent
  /-- the inputs still to come -/
  trace : List Input
  /-- how many inputs were consumed: the position of the next one -/
  pos : Nat
  deriving DecidableEq, Repr

/-- Why the machine stops with a fault. -/
inductive Fault where
  /-- Raised by `step` when no input is left: a run ends where its trace ends (00_scope.md R15). Safe. -/
  | traceEnded
  deriving DecidableEq, Repr

/-- Why the machine refuses. -/
inductive Refusal where
  /-- Raised by an arm of `exec` whose instruction has no meaning yet. Safe. -/
  | notModelled (mnemonic : String)
  /-- Raised by `step`: the parameter record is not well formed (00_scope.md R8). Safe. -/
  | configNotOK
  /-- Raised by `step`: `DELAY(0)` does not fit the channel's compare register (60_exceptions.md R190,
  `CmpOverflow`; 00_scope.md R8). Safe. -/
  | cmpOverflow (ch : Nat)
  /-- Raised by `step`: the decoder refuses the code at this position (30_encoding.md R90). Safe. -/
  | illegalWord (why : Illegal) (pos : Nat)
  /-- Raised by the meanings of the three reserved operation codes (30_encoding.md R90). Safe. -/
  | reservedOp (op : Nat)
  /-- Raised by `CM` and `REQWR` on a channel that does not exist (10_state.md R41, 30_encoding.md R90).
  Safe. -/
  | noSuchChannel (ch : Nat)
  /-- Raised by `RD` and by host-port accesses on a number that holds no register (10_state.md R41). Safe. -/
  | noSuchRegister (n : RegNum)
  /-- Raised by a host-port write to a read-only register (10_state.md R41). Safe. -/
  | readOnlyRegister (n : RegNum)
  /-- Raised by `RISE` when `bit_cnt` is already 8 (42_serial_receiver.md R144). Safe. -/
  | riseWithoutFall
  /-- Raised by a sample in which `scl` and `sda_in` both change (30_encoding.md R96). Safe. -/
  | bothLinesChange
  /-- Raised by `step`: the parameter record has a `PKT_SIZE` other than 2, for which there is no packet layout
  (43_host_consumer.md R177, 93_implementation_defined.md U13). Safe. -/
  | noPacketLayout
  deriving DecidableEq, Repr

/-- A channel after reset (10_state.md R43). -/
def Chan.atReset (cfg : Config) (ch : Nat) : Chan where
  zcp := false
  applied := 0
  requested := 0
  drive := false
  cnt := 0
  cmp := cmpReg cfg ch 0
  cmEn := false

/-- The serial receiver after reset; `sr` and `rx_data` are unspecified and come from outside
(10_state.md R43). -/
def Ssr.atReset (sr rxData : Byte) : Ssr where
  state := .checkAddress
  mode := .startOnly
  sr := sr
  bitCnt := 0
  bitTarget := 8
  sdaDrive := false
  rxData := rxData
  rxStatus := .terminated

/-- The machine right after reset under a given parameter record (10_state.md R43), with no inputs. -/
def State.resetWith (cfg : Config) : State where
  cfg := cfg
  zcEn := false
  ssrEn := false
  chans := (List.range cfg.nCh).map (Chan.atReset cfg)
  ssr := Ssr.atReset (Config.freeByte 0) (Config.freeByte 1)
  front := ⟨false, true, true, false, true, true, false⟩
  ghost := ⟨0, 0, []⟩
  host := ⟨false, false, 0, []⟩
  reads := []
  draws := 2
  ports := []
  trace := []
  pos := 0

/-- The machine right after reset, in the reference configuration (10_state.md R43, 00_scope.md R7). -/
def State.reset : State := State.resetWith Config.ref

end Sys2Proof.Machine
end

