-- ==== Sys2Proof/Machine/Ops.lean ====
section
/-! DEFINITION. The named operations over the state: sequencing of outcomes, the updates of each part, `raise`
(the one thing the spec has in place of taking an exception: 00_scope.md R11, 60_exceptions.md R190, R200),
the effect of reset, and the two host accesses that change registers. -/

namespace Sys2Proof.Machine

/-- What a meaning answers. -/
abbrev Result := Host.Outcome State Fault Refusal

/-- Runs `f` on the next state; a fault or a refusal ends the sequence. -/
def andThen (o : Result) (f : State → Result) : Result :=
  match o with
  | .next s => f s
  | .fault r => .fault r
  | .refused r => .refused r

/-- The channels, replaced. -/
def withChans (s : State) (cs : List Chan) : State := { s with chans := cs }

/-- The serial receiver, replaced. -/
def withSsr (s : State) (r : Ssr) : State := { s with ssr := r }

/-- The pins and the line history, replaced. -/
def withFront (s : State) (f : Front) : State := { s with front := f }

/-- The host's process, replaced. -/
def withHost (s : State) (h : HostProc) : State := { s with host := h }

/-- One more value returned to the host (20_memory.md R61). -/
def returnRead (s : State) (n : RegNum) (v : RegData) : State :=
  { s with reads := s.reads ++ [⟨n, v⟩] }

/-- The ghost state after `raise c`: `c` joins the log, and two of the conditions are counted
(60_exceptions.md R190). -/
def logCondition (g : Ghost) (c : Condition) : Ghost :=
  match c with
  | .zcOverrun => { g with zcDropped := g.zcDropped + 1, log := g.log ++ [c] }
  | .rxOverrun _ => { g with rxDropped := g.rxDropped + 1, log := g.log ++ [c] }
  | .badIndex _ => { g with log := g.log ++ [c] }
  | .shortPacket _ => { g with log := g.log ++ [c] }

/-- `raise <Condition>(info)`: recorded in the ghost log "and does nothing else" (00_scope.md R11). No state is
saved, no mode changes, control is not transferred (60_exceptions.md R200), and so nothing returns (R201). -/
def raise (s : State) (c : Condition) : State := { s with ghost := logCondition s.ghost c }

/-- The code of a condition (60_exceptions.md R190). -/
def conditionCode : Condition → Nat
  | .zcOverrun => 1
  | .rxOverrun _ => 2
  | .badIndex _ => 3
  | .shortPacket _ => 4

/-- The effect of reset on the block: every register takes its reset value, `sr` and `rx_data` a fresh free
value each, the ghost state is cleared (43_host_consumer.md R170, 10_state.md R43). The pins, the line history
but for `start_pending`, the host's process and the inputs are not registers reset sets (log 6, DESIGN CHOICE). -/
def resetBlock (s : State) : State :=
  { s with
    zcEn := false
    ssrEn := false
    chans := (List.range s.cfg.nCh).map (Chan.atReset s.cfg)
    ssr := Ssr.atReset (Config.freeByte s.draws) (Config.freeByte (s.draws + 1))
    front := { s.front with startPending := false }
    ghost := ⟨0, 0, []⟩
    draws := s.draws + 2 }

/-- The write port of `REQ_DIM[ch]`: stores `min(v, 100)` (43_host_consumer.md R173, 10_state.md R41). -/
def writeRequest (s : State) (ch v : Nat) : Result :=
  if ch < s.chans.length then
    .next (withChans s (s.chans.modify ch fun c => { c with requested := requestValue v }))
  else .refused (.noSuchChannel ch)

/-- The status after the host's poll: a byte that was there is taken (43_host_consumer.md R174). -/
def statusTaken : RxStatus → RxStatus
  | .received => .pending
  | .pending => .pending
  | .terminated => .terminated

/-- The state after the host's poll of the latch (43_host_consumer.md R174). -/
def takeByte (s : State) : State :=
  withSsr s { s.ssr with rxStatus := statusTaken s.ssr.rxStatus }

end Sys2Proof.Machine
end

