-- ==== Sys2Proof/Machine/Flags.lean ====
section
/-! DEFINITION. The handshake flags and enables (spec 10_state.md R34, R36; 60_exceptions.md R193, R194), the
numbers of the enumerated registers (30_encoding.md R86), and the value of every host register
(10_state.md R41). -/

namespace Sys2Proof.Machine

/-- Some `zcp[ch]` is set: the overrun guard of the zero-cross detector (40_zero_cross.md R111). -/
def anyPending (s : State) : Bool := s.chans.any Chan.zcp

/-- The clock edges reach the receiver: `ssr_en == 1` and `ssr_mode != START_ONLY`
(42_serial_receiver.md R144 to R146). -/
def clocked (s : State) : Bool := s.ssrEn && s.ssr.mode == .counting

/-- The number of an `ssr_state` (30_encoding.md R86). -/
def ssrStateNum : SsrState → Nat
  | .checkAddress => 0
  | .recvDataWait => 1
  | .recvDataAckSend => 2

/-- The number of an `ssr_mode` (30_encoding.md R86). -/
def ssrModeNum : SsrMode → Nat
  | .startOnly => 0
  | .counting => 1

/-- The number of an `rx_status` (30_encoding.md R86). -/
def rxStatusNum : RxStatus → Nat
  | .terminated => 0
  | .pending => 1
  | .received => 2

/-- Bit `i` of a register that shows one bit of each channel from bit `lo` on; a channel that does not exist
shows 0 (10_state.md R41, "Bits not listed read 0"). -/
def chanBits (cs : List Chan) (f : Chan → Bool) (lo : Nat) : Nat :=
  match cs with
  | [] => 0
  | c :: rest => (f c).toNat * 2 ^ lo + chanBits rest f (lo + 1)

/-- `CTRL` (10_state.md R41). -/
def ctrlWord (s : State) : Nat := s.zcEn.toNat + s.ssrEn.toNat * 2 + chanBits s.chans Chan.cmEn 2

/-- `FLAGS` (10_state.md R41). -/
def flagsWord (s : State) : Nat :=
  chanBits s.chans Chan.zcp 0 + chanBits s.chans Chan.drive 3 + s.ssr.sdaDrive.toNat * 2 ^ 6

/-- `SSR_STAT` (10_state.md R41). -/
def ssrStatWord (s : State) : Nat :=
  rxStatusNum s.ssr.rxStatus + ssrStateNum s.ssr.state * 2 ^ 2 + ssrModeNum s.ssr.mode * 2 ^ 4

/-- `SSR_CNT` (10_state.md R41). -/
def ssrCntWord (s : State) : Nat := s.ssr.bitCnt.toNat + s.ssr.bitTarget.toNat * 2 ^ 4

/-- `RX_TAKE`: `st ++ v`, the status before the read in [9:8] and the latch in [7:0] (10_state.md R41,
43_host_consumer.md R174). -/
def rxTakeWord (s : State) : Nat := s.ssr.rxData.toNat + rxStatusNum s.ssr.rxStatus * 2 ^ 8

/-- The value of a host register; none for a channel that does not exist (10_state.md R41). -/
def regValue (s : State) : HostReg → Option Nat
  | .ctrl => some (ctrlWord s)
  | .flags => some (flagsWord s)
  | .ssrStat => some (ssrStatWord s)
  | .rxData => some s.ssr.rxData.toNat
  | .ssrCnt => some (ssrCntWord s)
  | .sr => some s.ssr.sr.toNat
  | .rxTake => some (rxTakeWord s)
  | .reqDim ch => s.chans[ch]?.map fun c => c.requested.toNat
  | .appDim ch => s.chans[ch]?.map fun c => c.applied.toNat
  | .cmp ch => s.chans[ch]?.map fun c => c.cmp.toNat
  | .cnt ch => s.chans[ch]?.map fun c => c.cnt.toNat

/-- The value `MemRead(n, 1)` obtains, without its side effect; none where `n` holds no register
(20_memory.md R61). -/
def readValue (s : State) (n : RegNum) : Option RegData :=
  ((hostReg s.cfg.nCh n).bind (regValue s)).map (BitVec.ofNat 16)

/-- The event sources (60_exceptions.md R193). The operand of a compare match is 2 bits wide, as that of `CM` is; a
channel `ch >= N_CH` is no source (log 16, DESIGN CHOICE). -/
inductive EventSource where
  | zeroCross
  | compareMatch (ch : BitVec 2)
  | serialStart
  | serialOverflow
  deriving DecidableEq, Repr

/-- The id of an event source. "Sources 2 and 3 exist only when `N_CH` is at least 2 and 3" (60_exceptions.md R193): a
compare match of a channel that does not exist, channel 3 among them, has no id (log 16, DESIGN CHOICE). -/
def sourceId (nCh : Nat) : EventSource → Option Nat
  | .zeroCross => some 0
  | .compareMatch ch => if ch.toNat < nCh then some (1 + ch.toNat) else none
  | .serialStart => some 4
  | .serialOverflow => some 5

/-- The enable of an event source: one bit of `CTRL`, and for the byte boundary also `ssr_mode`
(60_exceptions.md R193, R194). A channel that does not exist has no enable and reads as disabled (log 16, DESIGN
CHOICE). -/
def sourceEnabled (s : State) : EventSource → Bool
  | .zeroCross => s.zcEn
  | .compareMatch ch => (s.chans[ch.toNat]?.map Chan.cmEn).getD false
  | .serialStart => s.ssrEn
  | .serialOverflow => clocked s

/-- The operation that serves an event source; `START` carries the level sampled (60_exceptions.md R193). -/
def servedBy (sample : Bool) : EventSource → Instr
  | .zeroCross => .zc
  | .compareMatch ch => .cm ch
  | .serialStart => .start sample
  | .serialOverflow => .bb

end Sys2Proof.Machine
end

