-- ==== Sys2Proof/Machine/HostPort.lean ====
section
/-! DEFINITION. The host's operations `RESET`, `INIT`, `RD`, `REQWR`, `RXTAKE` (spec 43_host_consumer.md) and
the host port's reads and writes (20_memory.md R61). -/

namespace Sys2Proof.Machine

/-- `RESET` (43_host_consumer.md R170). -/
def execReset (s : State) : Result := .next (resetBlock s)

/-- `INIT`: the enables are set, the line history is loaded from the pins (43_host_consumer.md R171). -/
def execInit (s : State) : Result :=
  .next
    { s with
      zcEn := true
      ssrEn := true
      chans := s.chans.map fun c => { c with cmEn := true }
      front :=
        { s.front with
          zcPrev := s.front.zcIn
          sclPrev := s.front.scl
          sdaPrev := s.front.sdaIn
          startPending := false } }

/-- One poll of the receive latch: the value is returned, a byte that is there is taken
(43_host_consumer.md R174, 20_memory.md R61). -/
def pollLatch (s : State) : State := returnRead (takeByte s) 6 (BitVec.ofNat 16 (rxTakeWord s))

/-- `MemRead(n, 1)`: no side effect except at `RX_TAKE` (20_memory.md R61). -/
def memRead (n : RegNum) (s : State) : Result :=
  if n = 6 then .next (pollLatch s)
  else
    match readValue s n with
    | some v => .next (returnRead s n v)
    | none => .refused (.noSuchRegister n)

/-- `MemWrite(n, 1, v)`: defined only for `REQ_DIM[ch]`; a write to a read-only register or to a number that
holds no register is refused (20_memory.md R61, 10_state.md R41). A value above 255 stores 100 like any above 100
(log 11, DEDUCED). -/
def memWrite (n : RegNum) (v : RegData) (s : State) : Result :=
  match hostReg s.cfg.nCh n with
  | none => .refused (.noSuchRegister n)
  | some (.reqDim ch) => writeRequest s ch v.toNat
  | some _ => .refused (.readOnlyRegister n)

/-- `RD n` (43_host_consumer.md R172). -/
def execRd (n : RegNum) (s : State) : Result := memRead n s

/-- `REQWR ch, v` (43_host_consumer.md R173). -/
def execReqwr (ch : BitVec 2) (v : Byte) (s : State) : Result := writeRequest s ch.toNat v.toNat

/-- `RXTAKE` (43_host_consumer.md R174). -/
def execRxtake (s : State) : Result := .next (pollLatch s)

end Sys2Proof.Machine
end

