-- ==== Sys2Proof/Machine/PhaseTimer.lean ====
section
/-! DEFINITION. The phase-delay timer engine PDT: the operations `TICK` and `CM` (spec 41_phase_timer.md). -/

namespace Sys2Proof.Machine

/-- Step 1 of `CM`, the fire decision (41_phase_timer.md R122). -/
def fireChan (cfg : Config) (c : Chan) : Chan :=
  if c.zcp then
    { c with zcp := false, drive := if cfg.minPct < c.applied.toNat then true else c.drive }
  else c

/-- Step 2 of `CM`, the promotion (41_phase_timer.md R123). -/
def promoteChan (cfg : Config) (ch : Nat) (c : Chan) : Chan :=
  if c.applied = c.requested then c
  else { c with applied := c.requested, cmp := cmpReg cfg ch c.requested.toNat }

/-- `CM` on its channel: nothing while disabled, else step 1 and then step 2 (41_phase_timer.md R122, R124,
R133). -/
def serviceChan (cfg : Config) (ch : Nat) (c : Chan) : Chan :=
  if c.cmEn then promoteChan cfg ch (fireChan cfg c) else c

/-- The counter of a channel after one tick: up by one, modulo `2^W[ch]` (41_phase_timer.md R121). -/
def countChan (cfg : Config) (ch : Nat) (c : Chan) : Chan :=
  { c with cnt := BitVec.ofNat 16 ((c.cnt.toNat + 1) % 2 ^ cfg.width ch) }

/-- `TICK` on one channel: count, and serve the compare match if the counter has reached the compare value
(41_phase_timer.md R121). The channels' services touch disjoint state, so each is given at once with its
count. -/
def tickChan (cfg : Config) (ch : Nat) (c : Chan) : Chan :=
  if (countChan cfg ch c).cmEn && (countChan cfg ch c).cnt == (countChan cfg ch c).cmp then
    serviceChan cfg ch (countChan cfg ch c)
  else countChan cfg ch c

/-- `TICK` (41_phase_timer.md R121). -/
def execTick (s : State) : Result := .next (withChans s (s.chans.mapIdx (tickChan s.cfg)))

/-- `CM ch` (41_phase_timer.md R122). -/
def execCm (ch : BitVec 2) (s : State) : Result :=
  if ch.toNat < s.chans.length then
    .next (withChans s (s.chans.modify ch.toNat (serviceChan s.cfg ch.toNat)))
  else .refused (.noSuchChannel ch.toNat)

end Sys2Proof.Machine
end

