-- ==== Sys2Proof/Machine/Receiver.lean ====
section
/-! DEFINITION. The serial slave receiver SSR: the operations `START`, `STOP`, `RISE`, `FALL`, `BB` (spec
42_serial_receiver.md). -/

namespace Sys2Proof.Machine

/-- The receiver after a start-condition interrupt whose sample is `high` (42_serial_receiver.md R142). -/
def startSsr (high : Bool) (r : Ssr) : Ssr :=
  { r with
    state := .checkAddress
    mode := if high then .startOnly else .counting
    bitCnt := 0
    bitTarget := 8
    sdaDrive := false
    rxStatus := .terminated }

/-- The service of a start-condition interrupt, nothing while disabled (42_serial_receiver.md R142, R158). -/
def serveStart (high : Bool) (s : State) : State :=
  if s.ssrEn then withSsr s (startSsr high s.ssr) else s

/-- `START s` (42_serial_receiver.md R142). -/
def execStart (high : Bool) (s : State) : Result := .next (serveStart high s)

/-- `STOP` (42_serial_receiver.md R143). -/
def execStop (s : State) : Result :=
  if s.cfg.pStopIrq then .next (serveStart true s) else .next s

/-- The bit the receiver samples: its own pull reads as 0 (42_serial_receiver.md R144). -/
def sampledBit (b : Bool) (r : Ssr) : Bool := b && !r.sdaDrive

/-- The receiver after a rising clock edge (42_serial_receiver.md R144). -/
def riseSsr (b : Bool) (r : Ssr) : Ssr :=
  { r with
    sr := (r.sr <<< 1) ||| (BitVec.ofBool (sampledBit b r)).setWidth 8
    bitCnt := r.bitCnt + 1 }

/-- `RISE b`; refused when the count is already 8 (42_serial_receiver.md R144). -/
def execRise (b : Bool) (s : State) : Result :=
  if clocked s then
    if 8 ≤ s.ssr.bitCnt.toNat then .refused .riseWithoutFall
    else .next (withSsr s (riseSsr b s.ssr))
  else .next s

/-- `BB_ADDR` on a match: acknowledge (42_serial_receiver.md R147). -/
def addrMatchSsr (r : Ssr) : Ssr :=
  { r with sdaDrive := true, bitCnt := 0, bitTarget := 1, state := .recvDataWait, rxStatus := .pending }

/-- `BB_ADDR` on a mismatch: idle until the next start (42_serial_receiver.md R148). -/
def addrMismatchSsr (r : Ssr) : Ssr := { r with mode := .startOnly, bitCnt := 0 }

/-- The abort arm of `BB_WAIT` (42_serial_receiver.md R149). -/
def waitAbortSsr (r : Ssr) : Ssr :=
  { r with state := .checkAddress, mode := .startOnly, sdaDrive := false, bitCnt := 0, bitTarget := 8 }

/-- The other arm of `BB_WAIT`: the acknowledge ends, a data byte follows (42_serial_receiver.md R149). -/
def waitReleaseSsr (r : Ssr) : Ssr :=
  { r with sdaDrive := false, bitCnt := 0, bitTarget := 8, state := .recvDataAckSend }

/-- The acknowledge of a data byte, always driven (42_serial_receiver.md R150). -/
def ackSsr (r : Ssr) : Ssr :=
  { r with sdaDrive := true, bitCnt := 0, bitTarget := 1, state := .recvDataWait }

/-- The latch of a data byte while the status is `PENDING` (42_serial_receiver.md R150). -/
def latchSsr (r : Ssr) : Ssr := { r with rxData := r.sr, rxStatus := .received }

/-- `BB_ADDR` (42_serial_receiver.md R147, R148). On an `sr` that was never filled it compares the free value
(R160; log 3, DESIGN CHOICE). -/
def bbAddr (s : State) : State :=
  if addressed s.cfg s.ssr.sr then withSsr s (addrMatchSsr s.ssr) else withSsr s (addrMismatchSsr s.ssr)

/-- `BB_WAIT` (42_serial_receiver.md R149). -/
def bbWait (s : State) : State :=
  if s.ssr.rxStatus = .terminated then withSsr s (waitAbortSsr s.ssr) else withSsr s (waitReleaseSsr s.ssr)

/-- `BB_ACK` (42_serial_receiver.md R150). -/
def bbAck (s : State) : State :=
  if s.ssr.rxStatus = .pending then withSsr s (ackSsr (latchSsr s.ssr))
  else raise (withSsr s (ackSsr s.ssr)) (.rxOverrun s.ssr.sr)

/-- The byte-boundary service, by `ssr_state` (42_serial_receiver.md R146). -/
def serveBoundary (s : State) : State :=
  match s.ssr.state with
  | .checkAddress => bbAddr s
  | .recvDataWait => bbWait s
  | .recvDataAckSend => bbAck s

/-- `BB` (42_serial_receiver.md R146). -/
def execBb (s : State) : Result := if clocked s then .next (serveBoundary s) else .next s

/-- `FALL` (42_serial_receiver.md R145). -/
def execFall (s : State) : Result :=
  if clocked s && s.ssr.bitCnt == s.ssr.bitTarget then .next (serveBoundary s) else .next s

end Sys2Proof.Machine
end

