-- ==== Sys2Proof/Machine/Reserved.lean ====
section
/-! DEFINITION. The three reserved operation codes (spec 30_encoding.md R90): "An illegal word is not an
operation of the block". The decoder refuses their words; a term that names one stops by name. -/

namespace Sys2Proof.Machine

/-- A reserved operation code has no effect to give (30_encoding.md R90). -/
def refuseReserved (op : Nat) : Result := .refused (.reservedOp op)

/-- RESERVED_D (30_encoding.md R90). -/
def execReservedD (_ : State) : Result := refuseReserved 0xD

/-- RESERVED_E (30_encoding.md R90). -/
def execReservedE (_ : State) : Result := refuseReserved 0xE

/-- RESERVED_F (30_encoding.md R90). -/
def execReservedF (_ : State) : Result := refuseReserved 0xF

end Sys2Proof.Machine
end

