-- ==== Sys2Proof/Machine/Wire.lean ====
section
/-! DEFINITION. The symbols of the serial wire (spec 30_encoding.md R81 to R83) as the clocks that carry them:
the expansions `BYTE` and `ACKCLK` of R94, run as one instruction (log 10, DESIGN CHOICE). -/

namespace Sys2Proof.Machine

/-- One clock period with the data line at `b`: `RISE b` then `FALL` (30_encoding.md R94). -/
def clockBit (b : Bool) (s : State) : Result := andThen (execRise b s) execFall

/-- The lowest `k` bits of `v`, most significant first, one clock period each (20_memory.md R63,
30_encoding.md R94). -/
def clockBits (v : Byte) : Nat → State → Result
  | 0, s => .next s
  | k + 1, s => andThen (clockBit (v.getLsbD k) s) (clockBits v k)

/-- `BYTE v` (30_encoding.md R94). -/
def wireByte (v : Byte) (s : State) : Result := clockBits v 8 s

/-- WIRE.ADDR_MATCH: the address byte of this block (30_encoding.md R81; 42_serial_receiver.md R147). -/
def execWireAddrMatch (rw : Bool) (s : State) : Result :=
  wireByte (addrByte (BitVec.ofNat 7 s.cfg.slaveAddr) rw) s

/-- WIRE.ADDR_MISMATCH: an address byte of another device (30_encoding.md R81; 42_serial_receiver.md R148). -/
def execWireAddrMismatch (addr : BitVec 7) (rw : Bool) (s : State) : Result := wireByte (addrByte addr rw) s

/-- WIRE.DATA: a data byte (30_encoding.md R83; 42_serial_receiver.md R150). -/
def execWireData (d : Byte) (s : State) : Result := wireByte d s

/-- WIRE.ACK: the acknowledge clock, the master releasing the line, so that a 0 on it is the block's pull
(30_encoding.md R82, R94 `ACKCLK`). -/
def execWireAck (s : State) : Result := clockBit true s

end Sys2Proof.Machine
end

