-- ==== Sys2Proof/Machine/ZeroCross.lean ====
section
/-! DEFINITION. The zero-cross detector ZCD: the operation `ZC` (spec 40_zero_cross.md). -/

namespace Sys2Proof.Machine

/-- What an accepted zero-cross does to one channel: the flag is set, a channel below `MAX` is switched off,
the counter is cleared (40_zero_cross.md R111, R114). -/
def crossChan (cfg : Config) (c : Chan) : Chan :=
  { c with
    zcp := true
    drive := if c.applied.toNat < cfg.maxPct then false else c.drive
    cnt := 0 }

/-- `ZC` (40_zero_cross.md R111, R112, R113). -/
def execZc (s : State) : Result :=
  if s.zcEn then
    if anyPending s then .next (raise s .zcOverrun)
    else .next (withChans s (s.chans.map (crossChan s.cfg)))
  else .next s

end Sys2Proof.Machine
end

