-- ==== Sys2Proof/Machine/Dispatch.lean ====
section
/-! DEFINITION. The dispatch: one arm per instruction. -/

namespace Sys2Proof.Machine

def exec (i : Instr) (s : State) : Host.Outcome State Fault Refusal :=
  match i with
  | .reset => Sys2Proof.Machine.execReset s
  | .init => Sys2Proof.Machine.execInit s
  | .zc => Sys2Proof.Machine.execZc s
  | .tick => Sys2Proof.Machine.execTick s
  | .cm ch => Sys2Proof.Machine.execCm ch s
  | .start b => Sys2Proof.Machine.execStart b s
  | .stop => Sys2Proof.Machine.execStop s
  | .rise b => Sys2Proof.Machine.execRise b s
  | .fall => Sys2Proof.Machine.execFall s
  | .bb => Sys2Proof.Machine.execBb s
  | .reqwr ch v => Sys2Proof.Machine.execReqwr ch v s
  | .rxtake => Sys2Proof.Machine.execRxtake s
  | .rd n => Sys2Proof.Machine.execRd n s
  | .reservedD _ => Sys2Proof.Machine.execReservedD s
  | .reservedE _ => Sys2Proof.Machine.execReservedE s
  | .reservedF _ => Sys2Proof.Machine.execReservedF s
  | .wireAddrMatch rw => Sys2Proof.Machine.execWireAddrMatch rw s
  | .wireAddrMismatch addr rw => Sys2Proof.Machine.execWireAddrMismatch addr rw s
  | .wireData d => Sys2Proof.Machine.execWireData d s
  | .wireAck => Sys2Proof.Machine.execWireAck s

end Sys2Proof.Machine
end

