-- ==== Sys2Proof/Machine/FrontEnd.lean ====
section
/-! DEFINITION. The pin-level front end (spec 30_encoding.md R96, R97): from successive samples of the input
ports to operations. -/

namespace Sys2Proof.Machine

/-- The edge from `old` to `new` is one `ZC_EDGE_SEL` selects (30_encoding.md R96, rows 1 and 2). -/
def edgeSelected (sel : EdgeSel) (old new : Bool) : Bool :=
  match sel with
  | .rising => !old && new
  | .falling => old && !new
  | .both => old != new

/-- The front end's own state after one port change (30_encoding.md R96): the level and the last sampled level
of the line follow, and `start_pending` is set by a data edge down and cleared by the edge that resolves it. -/
def portFront (ssrEn : Bool) (f : Front) : PortEvent → Front
  | .rst => f
  | .tick => f
  | .zcIn b => { f with zcIn := b, zcPrev := b }
  | .scl b => { f with scl := b, sclPrev := b, startPending := f.startPending && !(f.sclPrev && !b) }
  | .sdaIn b =>
    { f with
      sdaIn := b
      sdaPrev := b
      startPending :=
        if f.scl && f.sdaPrev && !b then f.startPending || ssrEn
        else f.startPending && !(f.scl && !f.sdaPrev && b) }

/-- The operation a port change emits, if any (30_encoding.md R96). -/
def portOp (sel : EdgeSel) (f : Front) : PortEvent → Option Instr
  | .rst => some .reset
  | .tick => some .tick
  | .zcIn b => if edgeSelected sel f.zcPrev b then some .zc else none
  | .scl b =>
    if !f.sclPrev && b then some (.rise f.sdaIn)
    else if f.sclPrev && !b then
      if f.startPending then some (.start false) else some .fall
    else none
  | .sdaIn b =>
    if f.scl && !f.sdaPrev && b then
      if f.startPending then some (.start true) else some .stop
    else none

/-- One port change is served: the front end moves, then the operation it emits runs (30_encoding.md R96). -/
def servePort (e : PortEvent) (s : State) : Result :=
  match portOp s.cfg.zcEdge s.front e with
  | some i => exec i (withFront s (portFront s.ssrEn s.front e))
  | none => .next (withFront s (portFront s.ssrEn s.front e))

/-- The port changes of a sample against the line history (30_encoding.md R96). -/
def sampleEvents (f : Front) (p : Sample) : List PortEvent :=
  (if p.rst then [.rst] else []) ++ (if p.tick then [.tick] else [])
    ++ (if p.zcIn = f.zcPrev then [] else [.zcIn p.zcIn])
    ++ (if p.scl = f.sclPrev then [] else [.scl p.scl])
    ++ (if p.sdaIn = f.sdaPrev then [] else [.sdaIn p.sdaIn])

/-- One of the orders of a list, chosen by `k`; every order is chosen by some `k` (60_exceptions.md R198). -/
def arrange {α : Type} : List α → Nat → List α
  | [], _ => []
  | [a], _ => [a]
  | a :: b :: l, k =>
    (arrange (b :: l) (k / (l.length + 2))).insertIdx (k % (l.length + 2)) a

/-- A sample: refused where both serial lines change (30_encoding.md R96), else its port changes wait to be
served one by one, in an order the spec leaves open (60_exceptions.md R198; log 7, DESIGN CHOICE). -/
def serveSample (p : Sample) (s : State) : Result :=
  if p.scl ≠ s.front.sclPrev ∧ p.sdaIn ≠ s.front.sdaPrev then .refused .bothLinesChange
  else
    .next
      { s with
        ports := s.ports ++ arrange (sampleEvents s.front p) (Config.eventOrder s.draws)
        draws := s.draws + 1 }

end Sys2Proof.Machine
end

