-- ==== Sys2Proof/Machine/HostAgent.lean ====
section
/-! DEFINITION. The host's procedures as a process that moves one operation at a time: `receive_packet`
(spec 43_host_consumer.md R175), the consumer loop (R177) and `PKTAPPLY` (R178). -/

namespace Sys2Proof.Machine

/-- The host calls `receive_packet(buf, size)` (43_host_consumer.md R175). -/
def callReceive (size : Nat) (s : State) : State :=
  withHost s ⟨false, decide (0 < size), size, []⟩

/-- The host enters the consumer loop, which calls `receive_packet(buf, PKT_SIZE)` (43_host_consumer.md R177). -/
def enterConsumer (s : State) : State := withHost s ⟨true, decide (0 < s.cfg.pktSize), s.cfg.pktSize, []⟩

/-- The host's variables after a poll that returned `(st, v)` (43_host_consumer.md R175). -/
def hostAfterPoll (h : HostProc) (st : RxStatus) (v : Byte) : HostProc :=
  match st with
  | .received => { h with buf := h.buf ++ [v], running := decide (h.buf.length + 1 < h.size) }
  | .terminated => { h with running := false }
  | .pending => h

/-- One turn of the loop of `receive_packet`: one `RXTAKE` (43_host_consumer.md R175). -/
def hostPoll (s : State) : State :=
  withHost (pollLatch s) (hostAfterPoll s.host s.ssr.rxStatus s.ssr.rxData)

/-- `PKTAPPLY(i, d)` (43_host_consumer.md R178). -/
def applyPacket (i d : Byte) (s : State) : Result :=
  if s.cfg.nCh ≤ i.toNat then .next (raise s (.badIndex i))
  else writeRequest s i.toNat (sentinelClamp s.cfg d.toNat)

/-- What the consumer does when `receive_packet` has returned: a full packet is applied, a short one discarded
(43_host_consumer.md R177, 60_exceptions.md R190). No record without this layout of two bytes has a run (R177;
93_implementation_defined.md U13). -/
def finishPacket (s : State) : Result :=
  match s.host.buf with
  | [i, d] => applyPacket i d s
  | short => .next (raise s (.shortPacket short.length))

/-- The consumer calls `receive_packet` again (43_host_consumer.md R177). -/
def callAgain (s : State) : Result := .next (withHost s { s.host with running := true, buf := [] })

/-- One step of the host's process: a poll while its call runs, else what the consumer does with the result;
a host outside the consumer loop does nothing more once its call has returned (43_host_consumer.md R175,
R177). -/
def hostStep (s : State) : Result :=
  if s.host.running then .next (hostPoll s)
  else if s.host.consumer then andThen (finishPacket s) callAgain
  else .next s

end Sys2Proof.Machine
end

