-- ==== Sys2Proof/Machine/Inputs.lean ====
section
/-! DEFINITION. What one input of the environment does (spec 00_scope.md R13, R14), and when a parameter record
is refused (00_scope.md R8; 93_implementation_defined.md U13). -/

namespace Sys2Proof.Machine

/-- The refusal of a record: not well formed (00_scope.md R8; 60_exceptions.md R190, `CmpOverflow`), or without a
packet layout (43_host_consumer.md R177; 93_implementation_defined.md U13). The step asks for it, `exec` does not, and
of several reasons the first in this order is named (log 14, DESIGN CHOICE). -/
def configRefusal (cfg : Config) : Option Refusal :=
  if rangesOK cfg then
    match overflowChannel cfg with
    | some ch => some (.cmpOverflow ch)
    | none => if cfg.pktSize = 2 then none else some .noPacketLayout
  else some .configNotOK

/-- A coded instruction at a position of the trace: decoded, and refused by name and position where the
decoder refuses it (30_encoding.md R90). -/
def serveCode (c : Code) (position : Nat) (s : State) : Result :=
  match decode s.cfg c with
  | .ok i => exec i s
  | .error why => .refused (.illegalWord why position)

/-- One input, taken from the trace at `position`. -/
def serveInput (x : Input) (position : Nat) (s : State) : Result :=
  match x with
  | .code c => serveCode c position s
  | .sample p => serveSample p s
  | .hostRead n => memRead n s
  | .hostWrite n v => memWrite n v s
  | .recvPacket size => .next (callReceive size s)
  | .consumer => .next (enterConsumer s)
  | .hostStep => hostStep s

/-- The first of the waiting port changes is served. -/
def popPort (s : State) (rest : List PortEvent) : State := { s with ports := rest }

/-- The next input is consumed. -/
def popInput (s : State) (rest : List Input) : State := { s with trace := rest, pos := s.pos + 1 }

/-- The inputs with `c` as the very next: nothing of an earlier sample waits before it. -/
def placeCode (s : State) (c : Code) : State := { s with ports := [], trace := .code c :: s.trace }

end Sys2Proof.Machine
end

