-- ==== Sys2Proof/Machine/Step.lean ====
section
/-! DEFINITION. One step of the machine: one port change that waits, or else the next input of the trace
(spec 00_scope.md R14; 30_encoding.md R96). -/

namespace Sys2Proof.Machine

/-- One step. A record that is not well formed, or has no packet layout, has no run (00_scope.md R8;
93_implementation_defined.md U13). A run ends where its trace ends (00_scope.md R15). -/
def step (s : State) : Host.Outcome State Fault Refusal :=
  match configRefusal s.cfg with
  | some r => .refused r
  | none =>
    match s.ports with
    | e :: rest => servePort e (popPort s rest)
    | [] =>
      match s.trace with
      | [] => .fault .traceEnded
      | x :: rest => serveInput x s.pos (popInput s rest)

/-- The state in which the next step runs the instruction of a table word: the word is the next input
(log 2, log 9). -/
def State.withFetchWord (s : State) (nbits w : Nat) : State := placeCode s (tableCode s.cfg nbits w)

end Sys2Proof.Machine
end

