-- ==== Sys2Proof/Machine/Pseudo.lean ====
section
/-! DEFINITION. Lists of operations run in order, and the pseudo-operations of spec 30_encoding.md R94 as such
lists; the boot sequence of 70_reset_and_hazards.md R222. -/

namespace Sys2Proof.Machine

/-- A trace of operations applied in order from a state (00_scope.md R14). -/
def runOps : List Instr → State → Result
  | [], s => .next s
  | i :: l, s => andThen (exec i s) (runOps l)

/-- `TICKS n` (30_encoding.md R94). -/
def ticksOps (n : Nat) : List Instr := List.replicate n .tick

/-- `HALFCYCLE h` (30_encoding.md R94). -/
def halfCycleOps (h : Nat) : List Instr := .zc :: ticksOps h

/-- One bit of `BYTE`: `RISE b` then `FALL` (30_encoding.md R94). -/
def bitOps (b : Bool) : List Instr := [.rise b, .fall]

/-- `BYTE v`, most significant bit first (30_encoding.md R94). -/
def byteOps (v : Byte) : List Instr := [7, 6, 5, 4, 3, 2, 1, 0].flatMap fun i => bitOps (v.getLsbD i)

/-- `ACKCLK` (30_encoding.md R94). -/
def ackOps : List Instr := bitOps true

/-- `STOPSEQ` (30_encoding.md R94). -/
def stopSeqOps : List Instr := [.rise false, .stop]

/-- `FRAME a, b0, .., bk` (30_encoding.md R94). -/
def frameOps (a : Byte) (bs : List Byte) : List Instr :=
  .start false :: byteOps a ++ ackOps ++ (bs.flatMap fun b => byteOps b ++ ackOps) ++ stopSeqOps

/-- `PKTAPPLY i, d` (30_encoding.md R94). It is a list of operations; under a record without a packet layout no step
runs it (93_implementation_defined.md U13). -/
def pktApplyOps (cfg : Config) (i d : Byte) : List Instr :=
  if i.toNat < cfg.nCh then
    [.reqwr (BitVec.ofNat 2 i.toNat) (BitVec.ofNat 8 (sentinelClamp cfg d.toNat))]
  else []

/-- The boot sequence up to the consumer loop (70_reset_and_hazards.md R222). -/
def bootOps (cfg : Config) : List Instr :=
  .reset :: .init ::
    (List.range cfg.nCh).map fun ch => .reqwr (BitVec.ofNat 2 ch) (BitVec.ofNat 8 (cfg.minPct - 1))

end Sys2Proof.Machine
end

