-- ==== Sys2Proof/Safety.lean ====
section
/-! DEFINITION. The invariants of the spec over one state, and what claims about runs are written with
(spec 10_state.md R26, R42, R44, R45; 30_encoding.md R90; 41_phase_timer.md R131). -/

namespace Sys2Proof.Safety

open Sys2Proof.Machine

/-- The ranges of one channel (10_state.md R44) and its compare value (R26). -/
structure ChanInv (cfg : Config) (ch : Nat) (c : Chan) : Prop where
  applied_le : c.applied.toNat ≤ 100
  requested_le : c.requested.toNat ≤ 100
  cnt_lt : c.cnt.toNat < 2 ^ cfg.width ch
  cmp_lt : c.cmp.toNat < 2 ^ cfg.width ch
  cmp_eq : c.cmp.toNat = cmpVal cfg ch c.applied.toNat

/-- The ranges of the receiver (10_state.md R44) and its handshake (R45). The first clause of R45 is stated for
both data states, as 42_serial_receiver.md R150 uses it. -/
structure SsrInv (r : Ssr) : Prop where
  bitCnt_le : r.bitCnt.toNat ≤ 8
  bitTarget_mem : r.bitTarget = 1 ∨ r.bitTarget = 8
  status : r.state ≠ .checkAddress → r.rxStatus ≠ .terminated
  ack : r.sdaDrive = true → r.state = .recvDataWait ∧ r.mode = .counting ∧ r.bitTarget = 1

/-- The channels are `N_CH` in number and each keeps its ranges (00_scope.md R7, 10_state.md R44, R26). -/
structure ChansInv (s : State) : Prop where
  length_eq : s.chans.length = s.cfg.nCh
  each : ∀ ch c, s.chans[ch]? = some c → ChanInv s.cfg ch c

/-- The line history of the front end (10_state.md R37, 30_encoding.md R96): it is the level of the pins, and a
start is pending only between a falling data edge with the clock high and the edge that resolves it, with the
receiver enabled. -/
structure FrontInv (s : State) : Prop where
  zc_eq : s.front.zcPrev = s.front.zcIn
  scl_eq : s.front.sclPrev = s.front.scl
  sda_eq : s.front.sdaPrev = s.front.sdaIn
  pending : s.front.startPending = true →
    s.ssrEn = true ∧ s.front.scl = true ∧ s.front.sdaIn = false

/-- How many of the operations of a trace clear `zcp[ch]` other than by a reset, which is the fire decision of that
channel (41_phase_timer.md R122, R131); it counts as far as the trace runs. -/
def fireDecisions (ch : Nat) : List Instr → State → Nat
  | [], _ => 0
  | i :: l, s =>
    match exec i s with
    | .next t =>
      (if i ≠ .reset ∧ (s.chans[ch]?.map Chan.zcp) = some true ∧ (t.chans[ch]?.map Chan.zcp) = some false
        then 1 else 0) + fireDecisions ch l t
    | .fault _ => 0
    | .refused _ => 0

/-- A trace in which no operation is an accepted zero-cross, as far as it runs (41_phase_timer.md R131,
00_scope.md R17). -/
def noAcceptedZc : List Instr → State → Prop
  | [], _ => True
  | i :: l, s =>
    (i = .zc → anyPending s = true ∨ s.zcEn = false) ∧
      match exec i s with
      | .next t => noAcceptedZc l t
      | .fault _ => True
      | .refused _ => True

/-- A field of an event word that must be 0 is not, for an operation code that is not reserved: `z`; `ch` but in
`CM` and `REQWR`; and of `d` what the operation does not use (30_encoding.md R87, R90). -/
abbrev badField (op z ch d : Nat) : Prop :=
  op < 13 ∧ (z ≠ 0 ∨ (op ≠ 4 ∧ op ≠ 10 ∧ ch ≠ 0)
    ∨ (op ≠ 5 ∧ op ≠ 7 ∧ op ≠ 10 ∧ op ≠ 12 ∧ d ≠ 0) ∨ ((op = 5 ∨ op = 7) ∧ 2 ≤ d) ∨ (op = 12 ∧ 64 ≤ d))

/-- The channel of `CM` or `REQWR` does not exist (30_encoding.md R90). -/
abbrev badChannel (nCh op ch : Nat) : Prop := (op = 4 ∨ op = 10) ∧ nCh ≤ ch

/-- A number holds a register: 0x00 to 0x06, and for each channel 0x10, 0x14, 0x18 and 0x1C plus its number
(10_state.md R41). -/
abbrev holdsRegister (nCh n : Nat) : Prop := n ≤ 6 ∨ (16 ≤ n ∧ n < 32 ∧ n % 4 < nCh)

/-- The number in `RD` holds no register (30_encoding.md R90). -/
abbrev badRegister (nCh op d : Nat) : Prop := op = 12 ∧ ¬ holdsRegister nCh d

/-- The rows of the writer matrix (10_state.md R42). -/
inductive StatePart where
  | zcp
  | applied
  | requested
  | drive
  | cnt
  | cmp
  | enables
  | ssrState
  | ssrMode
  | sr
  | bitCnt
  | bitTarget
  | sdaDrive
  | rxData
  | rxStatus
  deriving DecidableEq, Repr

/-- The two states hold the same in this part. A part of a channel is compared channel by channel. -/
def samePart (s t : State) : StatePart → Prop
  | .zcp => t.chans.map Chan.zcp = s.chans.map Chan.zcp
  | .applied => t.chans.map Chan.applied = s.chans.map Chan.applied
  | .requested => t.chans.map Chan.requested = s.chans.map Chan.requested
  | .drive => t.chans.map Chan.drive = s.chans.map Chan.drive
  | .cnt => t.chans.map Chan.cnt = s.chans.map Chan.cnt
  | .cmp => t.chans.map Chan.cmp = s.chans.map Chan.cmp
  | .enables => t.zcEn = s.zcEn ∧ t.ssrEn = s.ssrEn ∧ t.chans.map Chan.cmEn = s.chans.map Chan.cmEn
  | .ssrState => t.ssr.state = s.ssr.state
  | .ssrMode => t.ssr.mode = s.ssr.mode
  | .sr => t.ssr.sr = s.ssr.sr
  | .bitCnt => t.ssr.bitCnt = s.ssr.bitCnt
  | .bitTarget => t.ssr.bitTarget = s.ssr.bitTarget
  | .sdaDrive => t.ssr.sdaDrive = s.ssr.sdaDrive
  | .rxData => t.ssr.rxData = s.ssr.rxData
  | .rxStatus => t.ssr.rxStatus = s.ssr.rxStatus

/-- The operation may write the part: the writer matrix (10_state.md R42), with `TICK` in the columns of `CM`,
`RD` at `RX_TAKE` in the column of `RXTAKE`, and the wire symbols in the columns of the `RISE` and `FALL` they
are made of (30_encoding.md R94). `RESET` is given `sr` and `rx_data` too, where the matrix has a blank, since it draws
fresh free values for them (log 4, DESIGN CHOICE). -/
def mayWrite : Instr → StatePart → Bool
  | .reset, _ => true
  | .init, p => p == .enables
  | .zc, p => p == .zcp || p == .drive || p == .cnt
  | .tick, p => p == .zcp || p == .applied || p == .drive || p == .cnt || p == .cmp
  | .cm _, p => p == .zcp || p == .applied || p == .drive || p == .cmp
  | .start _, p | .stop, p =>
    p == .ssrState || p == .ssrMode || p == .bitCnt || p == .bitTarget || p == .sdaDrive || p == .rxStatus
  | .rise _, p => p == .sr || p == .bitCnt
  | .fall, p | .bb, p =>
    p == .ssrState || p == .ssrMode || p == .bitCnt || p == .bitTarget || p == .sdaDrive || p == .rxData
      || p == .rxStatus
  | .reqwr _ _, p => p == .requested
  | .rxtake, p => p == .rxStatus
  | .rd n, p => n == 6 && p == .rxStatus
  | .reservedD _, _ | .reservedE _, _ | .reservedF _, _ => false
  | .wireAddrMatch _, p | .wireAddrMismatch _ _, p | .wireData _, p | .wireAck, p =>
    p == .ssrState || p == .ssrMode || p == .sr || p == .bitCnt || p == .bitTarget || p == .sdaDrive
      || p == .rxData || p == .rxStatus

end Sys2Proof.Safety
end

