-- ==== Sys2Proof/Certificates/Slice0/Obligations.lean ====
section
/-! DEFINITION. What is stated of the machine, rule by rule of the spec. A statement about a next state gives
the whole of it: what it does not name is as it was. -/

open Sys2Proof Sys2Proof.Machine Sys2Proof.Safety

/-! ### Encoding (30_encoding.md) -/

/-- Decoding the code of a well-formed instruction gives the instruction back, for every instruction and every
value of its operands (30_encoding.md R81 to R83, R87 to R89). -/
def Obligations.DecodeUndoesEncode : Prop :=
  ∀ (cfg : Config) (i : Instr), configOK cfg = true → i.wf cfg = true → decode cfg (encode cfg i) = .ok i

/-- Each code has one meaning: what the decoder reads encodes to the code it was read from, and is well formed
(30_encoding.md R87 to R91). -/
def Obligations.EncodeUndoesDecode : Prop :=
  ∀ (cfg : Config) (c : Code) (i : Instr), decode cfg c = .ok i → encode cfg i = c ∧ i.wf cfg = true

/-- The illegal event words are exactly those of 30_encoding.md R90, each refused by its name, and a trace whose
next input is one is refused at its position. Which name a word gets that is illegal for several reasons R90 does not
say: a reserved operation code before a field that is not 0, and that before an absent channel or register, is the
model's choice (log 17). -/
def Obligations.IllegalEventWordsAreExact : Prop :=
  ∀ (cfg : Config) (op z ch d : Nat), op < 16 → z < 4 → ch < 4 → d < 256 →
    ∀ w : EventWord, w = BitVec.ofNat 16 (4096 * op + 1024 * z + 256 * ch + d) →
    (13 ≤ op → decode cfg (.evt w) = .error (.reservedOp op)) ∧
    (badField op z ch d → decode cfg (.evt w) = .error .fieldNotZero) ∧
    (¬ badField op z ch d → badChannel cfg.nCh op ch → decode cfg (.evt w) = .error (.noSuchChannel ch)) ∧
    (¬ badField op z ch d → badRegister cfg.nCh op d →
      decode cfg (.evt w) = .error (.noSuchRegister (BitVec.ofNat 6 d))) ∧
    (op < 13 → ¬ badField op z ch d → ¬ badChannel cfg.nCh op ch → ¬ badRegister cfg.nCh op d →
      ∃ i, decode cfg (.evt w) = .ok i) ∧
    (∀ (s : State) (rest : List Input) (why : Illegal), recordOK s.cfg = true → s.ports = [] →
      s.trace = .code (.evt w) :: rest → decode s.cfg (.evt w) = .error why →
      step s = .refused (.illegalWord why s.pos))

/-- Words written out from the tables of 30_encoding.md R88 and R81 to R83, each with the instruction it stands
for, and words R90 calls illegal. The bits of a wire symbol do not say which symbol it is (R92): that
`decodeTableWord` reads a byte that carries `SLAVE_ADDR` as an address byte, any other as a data byte, is the model's
choice (log 9). -/
def Obligations.TableWordsDecode : Prop :=
  decodeTableWord 16 0x0000 = some .reset ∧ decodeTableWord 16 0x1000 = some .init ∧
  decodeTableWord 16 0x2000 = some .zc ∧ decodeTableWord 16 0x3000 = some .tick ∧
  decodeTableWord 16 0x4200 = some (.cm 2) ∧ decodeTableWord 16 0x5001 = some (.start true) ∧
  decodeTableWord 16 0x6000 = some .stop ∧ decodeTableWord 16 0x7001 = some (.rise true) ∧
  decodeTableWord 16 0x8000 = some .fall ∧ decodeTableWord 16 0x9000 = some .bb ∧
  decodeTableWord 16 0xA150 = some (.reqwr 1 80) ∧ decodeTableWord 16 0xB000 = some .rxtake ∧
  decodeTableWord 16 0xC01E = some (.rd 0x1E) ∧ decodeTableWord 8 0xD5 = some (.wireAddrMatch true) ∧
  decodeTableWord 8 0x50 = some (.wireData 0x50) ∧ decodeTableWord 1 0 = some .wireAck ∧
  decodeTableWord 16 0xD000 = none ∧ decodeTableWord 16 0x4300 = none ∧ decodeTableWord 16 0x5002 = none ∧
  decodeTableWord 16 0xC007 = none ∧ decodeTableWord 16 0x2400 = none

/-- An address byte is a match exactly when `byte & 0xFE == SLAVE_ADDR << 1`, and else a mismatch; in REF the
matching bytes are 0xD4 and 0xD5 (30_encoding.md R81). -/
def Obligations.AddressByteMatches : Prop :=
  (∀ (cfg : Config) (b : Byte), decode cfg (.addr8 b) =
    .ok (if (b &&& 0xFE).toNat = 2 * cfg.slaveAddr then .wireAddrMatch (b.getLsbD 0)
      else .wireAddrMismatch (b.extractLsb' 1 7) (b.getLsbD 0))) ∧
  ∀ b : Byte, (∃ rw, decode Config.ref (.addr8 b) = .ok (.wireAddrMatch rw)) ↔ b = 0xD4 ∨ b = 0xD5

/-! ### The step (00_scope.md R8, R14, R15) -/

/-- A step whose next input is a code that decodes runs exactly that instruction, on the state that has consumed
the input and is otherwise the same (00_scope.md R14, 30_encoding.md R88). -/
def Obligations.StepRunsDecoded : Prop :=
  ∀ (s : State) (c : Code) (rest : List Input) (i : Instr), recordOK s.cfg = true → s.ports = [] →
    s.trace = .code c :: rest → decode s.cfg c = .ok i →
    step s = exec i { s with trace := rest, pos := s.pos + 1 }

/-- `ConfigOK` is the conjunction of 00_scope.md R8, and a step under any other record is refused. -/
def Obligations.IllFormedRecordsRefused : Prop :=
  (∀ cfg : Config, configOK cfg = true ↔
    1 ≤ cfg.nCh ∧ cfg.nCh ≤ 3 ∧ 1 ≤ cfg.minPct ∧ cfg.minPct < cfg.maxPct ∧ cfg.maxPct ≤ 99 ∧
    cfg.slaveAddr ≤ 127 ∧ 1 ≤ cfg.pktSize ∧ 1 ≤ cfg.fClk ∧ 1 ≤ cfg.prescaler ∧ 1 ≤ cfg.kStep ∧
    (∀ ch < cfg.nCh, cfg.width ch = 8 ∨ cfg.width ch = 16) ∧
    (cfg.ovf = .refuse → ∀ ch < cfg.nCh, delay cfg 0 < 2 ^ cfg.width ch)) ∧
  ∀ s : State, configOK s.cfg = false → ∃ r, step s = .refused r

/-- A well-formed record whose `PKT_SIZE` has no packet layout is refused before anything runs, since the model
includes `PKTAPPLY`; and no step under another record is refused for that reason (43_host_consumer.md R177;
93_implementation_defined.md U13). That it is the step that refuses is the model's choice (log 14). -/
def Obligations.PacketLayoutRequired : Prop :=
  ∀ s : State, configOK s.cfg = true → (step s = .refused .noPacketLayout ↔ s.cfg.pktSize ≠ 2)

/-- A run ends where its trace ends (00_scope.md R15): with no input left, the step is the fault that says so
(the model's way of ending a run, log 2). -/
def Obligations.RunEndsWithTrace : Prop :=
  ∀ s : State, recordOK s.cfg = true → s.ports = [] → s.trace = [] → step s = .fault .traceEnded

/-! ### The translator (41_phase_timer.md R125 to R128) -/

/-- `DELAY(d)` is the floor of the exact quotient (41_phase_timer.md R125). -/
def Obligations.DelayIsTheFloor : Prop :=
  ∀ (cfg : Config) (d : Nat), 1 ≤ cfg.prescaler → 1 ≤ cfg.kStep →
    delay cfg d * (cfg.prescaler * cfg.kStep) ≤ (100 - min d 100) * cfg.fClk ∧
    (100 - min d 100) * cfg.fClk < (delay cfg d + 1) * (cfg.prescaler * cfg.kStep)

/-- `DELAY` never increases, is largest at 0, and is 0 from 100 on (41_phase_timer.md R126). -/
def Obligations.DelayIsMonotone : Prop :=
  ∀ cfg : Config, configOK cfg = true →
    (∀ d e : Nat, d ≤ e → delay cfg e ≤ delay cfg d) ∧
    delay cfg 0 = 100 * cfg.fClk / (cfg.prescaler * cfg.kStep) ∧
    (∀ d : Nat, delay cfg d ≤ delay cfg 0) ∧
    ∀ d : Nat, 100 ≤ d → delay cfg d = 0

/-- `CMPVAL` under each overflow policy, that the compare register holds it whole, and that under `refuse` a record
whose `DELAY(0)` does not fit is not well formed (41_phase_timer.md R127). -/
def Obligations.CompareValueFits : Prop :=
  (∀ (cfg : Config) (ch : Nat), ch < cfg.nCh → cfg.ovf = .refuse → 2 ^ cfg.width ch ≤ delay cfg 0 →
    configOK cfg = false) ∧
  ∀ (cfg : Config) (ch d : Nat), configOK cfg = true → ch < cfg.nCh →
    delay cfg d ≤ delay cfg 0 ∧
    cmpVal cfg ch d < 2 ^ cfg.width ch ∧ (cmpReg cfg ch d).toNat = cmpVal cfg ch d ∧
    (cfg.ovf = .refuse → cmpVal cfg ch d = delay cfg d) ∧
    (cfg.ovf = .truncate → cmpVal cfg ch d = delay cfg d % 2 ^ cfg.width ch) ∧
    (cfg.ovf = .saturate → cmpVal cfg ch d = min (delay cfg d) (2 ^ cfg.width ch - 1))

/-- REF is well formed with `DELAY(0) = 156`; with `F_CLK = 8 000 000`, whose `DELAY(0)` is 1250, it is well formed
with 16-bit registers for every channel and with no other widths; the values of the table of 41_phase_timer.md R128
(00_scope.md R9). -/
def Obligations.ReferenceDelays : Prop :=
  configOK Config.ref = true ∧
  (∀ ws : List Nat, configOK (Config.refWith 8000000 ws) = true ↔
    ∀ ch < 3, ws.getD ch 0 = 16) ∧
  ([0, 1, 19, 20, 21, 50, 80, 94, 95, 96, 99, 100, 255].map (delay Config.ref)
    = [156, 154, 126, 125, 123, 78, 31, 9, 7, 6, 1, 0, 0]) ∧
  ([0, 19, 20, 80, 95, 96, 100].map (delay (Config.refWith 8000000 [16, 16, 16]))
    = [1250, 1012, 1000, 250, 62, 50, 0]) ∧
  cmpVal { Config.refWith 8000000 [8, 8, 8] with ovf := .truncate } 0 0 = 226

/-! ### Reset and initialisation (10_state.md R43; 43_host_consumer.md R170, R171) -/

/-- The registers after reset, under every well-formed record (10_state.md R43, the values the spec gives; in
the state the model starts from, and after the operation `RESET`). `RESET` is defined in every state
(43_host_consumer.md R170), and leaves the parameter record, the pins and their line history, the host's process,
the values the host has read and the inputs as they were (the model's choice, log 6). -/
def Obligations.ResetRegisters : Prop :=
  (∀ cfg : Config, configOK cfg = true →
    ∀ s : State, (s = State.resetWith cfg ∨ ∃ u, u.cfg = cfg ∧ exec .reset u = .next s) →
    s.zcEn = false ∧ s.ssrEn = false ∧ s.chans.length = cfg.nCh ∧
    (∀ (ch : Nat) (c : Chan), s.chans[ch]? = some c → c.zcp = false ∧ c.applied = 0 ∧ c.requested = 0 ∧
      c.drive = false ∧ c.cnt = 0 ∧ c.cmp.toNat = cmpVal cfg ch 0 ∧ c.cmEn = false) ∧
    s.ssr.state = .checkAddress ∧ s.ssr.mode = .startOnly ∧ s.ssr.bitCnt = 0 ∧ s.ssr.bitTarget = 8 ∧
    s.ssr.sdaDrive = false ∧ s.ssr.rxStatus = .terminated ∧ s.front.startPending = false ∧
    s.ghost.zcDropped = 0 ∧ s.ghost.rxDropped = 0 ∧ s.ghost.log = []) ∧
  State.reset = State.resetWith Config.ref ∧
  ∀ s : State, ∃ t, exec .reset s = .next t ∧ t.cfg = s.cfg ∧
    t.front = { s.front with startPending := false } ∧ t.host = s.host ∧ t.reads = s.reads ∧
    t.ports = s.ports ∧ t.trace = s.trace ∧ t.pos = s.pos

/-- `INIT` sets every enable and loads the line history from the pins, and changes nothing else; doing it twice
is doing it once (43_host_consumer.md R171). -/
def Obligations.InitEnables : Prop :=
  ∀ s : State, ∃ t, exec .init s = .next t ∧ t.zcEn = true ∧ t.ssrEn = true ∧
    t.chans.length = s.chans.length ∧
    (∀ (ch : Nat) (c : Chan), s.chans[ch]? = some c → t.chans[ch]? = some { c with cmEn := true }) ∧
    t.front = { s.front with
      zcPrev := s.front.zcIn, sclPrev := s.front.scl, sdaPrev := s.front.sdaIn, startPending := false } ∧
    t = { s with zcEn := true, ssrEn := true, chans := t.chans, front := t.front } ∧
    exec .init t = .next t

/-! ### The zero-cross detector (40_zero_cross.md) -/

/-- `ZC`: ignored while disabled, dropped without any change of a register while a flag is pending, and
otherwise accepted, with the whole of its effect (40_zero_cross.md R111, R112, R113). -/
def Obligations.ZeroCross : Prop :=
  ∀ s : State,
    (s.zcEn = false → exec .zc s = .next s) ∧
    (s.zcEn = true → (∃ c ∈ s.chans, c.zcp = true) →
      exec .zc s = .next { s with
        ghost := ⟨s.ghost.zcDropped + 1, s.ghost.rxDropped, s.ghost.log ++ [.zcOverrun]⟩ }) ∧
    (s.zcEn = true → (∀ c ∈ s.chans, c.zcp = false) →
      ∃ t, exec .zc s = .next t ∧ t = { s with chans := t.chans } ∧ t.chans.length = s.chans.length ∧
        ∀ (ch : Nat) (c : Chan), s.chans[ch]? = some c → t.chans[ch]? = some { c with
          zcp := true
          drive := if c.applied.toNat < s.cfg.maxPct then false else c.drive
          cnt := 0 })

/-- Of two zero-cross edges with nothing between them the second is dropped; once every channel has had its
compare match, a further edge is accepted (40_zero_cross.md R117). -/
def Obligations.BounceIsDropped : Prop :=
  ∀ s : State, configOK s.cfg = true → s.chans.length = s.cfg.nCh → s.zcEn = true →
    (∀ c ∈ s.chans, c.zcp = false ∧ c.cmEn = true) →
    ∃ t u, runOps [.zc] s = .next t ∧
      runOps [.zc, .zc] s = .next { t with
        ghost := ⟨t.ghost.zcDropped + 1, t.ghost.rxDropped, t.ghost.log ++ [.zcOverrun]⟩ } ∧
      runOps (.zc :: ((List.range s.cfg.nCh).map fun ch => .cm (BitVec.ofNat 2 ch)) ++ [.zc]) s = .next u ∧
      u.ghost = s.ghost ∧ ∀ c ∈ u.chans, c.zcp = true ∧ c.cnt = 0

/-! ### The phase-delay timer (41_phase_timer.md) -/

/-- `CM ch`: nothing while disabled; else the fire decision on the old brightness and then the promotion, on
that channel alone (41_phase_timer.md R122, R123, R124, R133). -/
def Obligations.CompareService : Prop :=
  ∀ (s : State) (ch : BitVec 2) (c : Chan), s.chans[ch.toNat]? = some c →
    (c.cmEn = false → exec (.cm ch) s = .next s) ∧
    (c.cmEn = true → ∃ t, exec (.cm ch) s = .next t ∧ t = { s with chans := t.chans } ∧
      t.chans.length = s.chans.length ∧
      t.chans[ch.toNat]? = some { c with
        zcp := false
        drive := c.drive || (c.zcp && decide (s.cfg.minPct < c.applied.toNat))
        applied := c.requested
        cmp := if c.applied = c.requested then c.cmp else cmpReg s.cfg ch.toNat c.requested.toNat } ∧
      ∀ k, k ≠ ch.toNat → t.chans[k]? = s.chans[k]?)

/-- `TICK` as the spec writes it: every counter goes up by one, modulo its width, and then `CM` runs, in
ascending order, for the enabled channels whose counter has reached the compare value
(41_phase_timer.md R121). -/
def Obligations.TickServesMatches : Prop :=
  ∀ s u : State, configOK s.cfg = true → s.chans.length = s.cfg.nCh →
    u = { s with chans := s.chans.mapIdx fun ch c =>
      { c with cnt := BitVec.ofNat 16 ((c.cnt.toNat + 1) % 2 ^ s.cfg.width ch) } } →
    exec .tick s = runOps (((List.range s.cfg.nCh).filter fun ch =>
      (u.chans[ch]?.map fun c => c.cmEn && c.cnt == c.cmp).getD false).map
        fun ch => .cm (BitVec.ofNat 2 ch)) u

/-- `TICK` answers a next state in every state, with each channel counted and, where its compare matches,
served; nothing but the channels changes (41_phase_timer.md R121, R122, R133). -/
def Obligations.TickCompletes : Prop :=
  ∀ s : State, ∃ t, exec .tick s = .next t ∧ t = { s with chans := t.chans } ∧
    t.chans.length = s.chans.length ∧
    ∀ (ch : Nat) (c : Chan) (n : TimerReg), s.chans[ch]? = some c →
      n = BitVec.ofNat 16 ((c.cnt.toNat + 1) % 2 ^ s.cfg.width ch) →
      t.chans[ch]? = some (if c.cmEn = true ∧ n = c.cmp then
        { c with
          cnt := n
          zcp := false
          drive := c.drive || (c.zcp && decide (s.cfg.minPct < c.applied.toNat))
          applied := c.requested
          cmp := if c.applied = c.requested then c.cmp else cmpReg s.cfg ch c.requested.toNat }
        else { c with cnt := n })

/-- The counters are free-running: after `n` ticks a counter has gone up by `n`, modulo its width, whether or
not a compare matched on the way (41_phase_timer.md R121; 10_state.md R24). -/
def Obligations.CountersAreFreeRunning : Prop :=
  ∀ (s : State) (ch n : Nat) (c : Chan), configOK s.cfg = true → ch < s.cfg.nCh → s.chans[ch]? = some c →
    c.cnt.toNat < 2 ^ s.cfg.width ch →
    ∃ t d, runOps (ticksOps n) s = .next t ∧ t.chans[ch]? = some d ∧
      d.cnt.toNat = (c.cnt.toNat + n) % 2 ^ s.cfg.width ch

/-- The phase delay: from an accepted zero-cross, a channel whose request is already applied is decided exactly `cmp`
ticks later, or `2^W` ticks later where `cmp` is 0, as the counter wraps; its pin is then on if and only if it was
left on by the zero-cross or its brightness is above `MIN` (41_phase_timer.md R121, R122, R129, R130, R136;
40_zero_cross.md R111). -/
def Obligations.FiresAfterItsDelay : Prop :=
  ∀ (s : State) (ch n m : Nat) (c : Chan), configOK s.cfg = true → s.chans.length = s.cfg.nCh →
    s.zcEn = true → (∀ b ∈ s.chans, b.zcp = false) → s.chans[ch]? = some c → c.cmEn = true →
    c.requested = c.applied → c.cmp.toNat < 2 ^ s.cfg.width ch →
    m = (if c.cmp = 0 then 2 ^ s.cfg.width ch else c.cmp.toNat) → n ≤ 2 ^ s.cfg.width ch →
    ∃ t d, runOps (halfCycleOps n) s = .next t ∧ t.chans[ch]? = some d ∧
      d.zcp = decide (n < m) ∧ d.applied = c.applied ∧ d.cmp = c.cmp ∧
      d.drive = ((!decide (c.applied.toNat < s.cfg.maxPct) && c.drive)
        || (decide (m ≤ n) && decide (s.cfg.minPct < c.applied.toNat)))

/-- At most one fire decision per channel between two accepted zero-cross events, over every trace
(41_phase_timer.md R131). -/
def Obligations.AtMostOneFirePerZeroCross : Prop :=
  ∀ (l : List Instr) (s : State) (ch : Nat), noAcceptedZc l s → fireDecisions ch l s ≤ 1

/-- A drive pin goes on only by `CM` (given, or performed by `TICK`) with the channel's flag set and its old
brightness above `MIN`, and goes off only by an accepted `ZC` with the brightness below `MAX`, or by `RESET`
(41_phase_timer.md R122, R130; 10_state.md R23; 90_conflicts.md C6). -/
def Obligations.DriveMovesOnlyByItsRules : Prop :=
  ∀ (i : Instr) (s t : State) (ch : Nat) (c d : Chan), exec i s = .next t → i ≠ .reset →
    s.chans[ch]? = some c → t.chans[ch]? = some d →
    (c.drive = false → d.drive = true →
      ((∃ k : BitVec 2, k.toNat = ch ∧ i = .cm k) ∨ i = .tick) ∧ c.zcp = true ∧ c.cmEn = true ∧
        s.cfg.minPct < c.applied.toNat) ∧
    (c.drive = true → d.drive = false →
      i = .zc ∧ s.zcEn = true ∧ c.applied.toNat < s.cfg.maxPct ∧ ∀ b ∈ s.chans, b.zcp = false)

/-! ### The serial receiver (42_serial_receiver.md) -/

/-- `START s`, in every state (42_serial_receiver.md R142). -/
def Obligations.StartService : Prop :=
  ∀ (s : State) (high : Bool),
    (s.ssrEn = false → exec (.start high) s = .next s) ∧
    (s.ssrEn = true → exec (.start high) s = .next { s with ssr :=
      { state := .checkAddress, mode := if high then .startOnly else .counting, sr := s.ssr.sr, bitCnt := 0,
        bitTarget := 8, sdaDrive := false, rxData := s.ssr.rxData, rxStatus := .terminated } })

/-- `STOP`: as `START 1` under `P_STOP_IRQ = 1`, else nothing (42_serial_receiver.md R143). -/
def Obligations.StopCondition : Prop :=
  ∀ s : State,
    (s.cfg.pStopIrq = true → exec .stop s = exec (.start true) s ∧ ∃ t, exec .stop s = .next t) ∧
    (s.cfg.pStopIrq = false → exec .stop s = .next s)

/-- `RISE b`: ignored while the clock is gated off; else the line's bit, its own pull reading as 0, is shifted
in at bit 0 and the count goes up; refused when the count is already 8 (42_serial_receiver.md R144). -/
def Obligations.RiseShifts : Prop :=
  ∀ (s : State) (b : Bool),
    (s.ssrEn = false ∨ s.ssr.mode = .startOnly → exec (.rise b) s = .next s) ∧
    (s.ssrEn = true → s.ssr.mode = .counting → 8 ≤ s.ssr.bitCnt.toNat →
      exec (.rise b) s = .refused .riseWithoutFall) ∧
    (s.ssrEn = true → s.ssr.mode = .counting → s.ssr.bitCnt.toNat < 8 →
      ∃ t, exec (.rise b) s = .next t ∧
        t = { s with ssr := { s.ssr with sr := t.ssr.sr, bitCnt := t.ssr.bitCnt } } ∧
        t.ssr.sr.toNat = (2 * s.ssr.sr.toNat + if b = true ∧ s.ssr.sdaDrive = false then 1 else 0) % 256 ∧
        t.ssr.bitCnt.toNat = s.ssr.bitCnt.toNat + 1)

/-- `FALL`: a byte boundary when the count has reached its target, else nothing
(42_serial_receiver.md R145). -/
def Obligations.FallIsTheBoundary : Prop :=
  ∀ s : State,
    (s.ssrEn = true → s.ssr.mode = .counting → s.ssr.bitCnt = s.ssr.bitTarget →
      exec .fall s = exec .bb s ∧ ∃ t, exec .fall s = .next t) ∧
    (s.ssrEn = false ∨ s.ssr.mode = .startOnly ∨ s.ssr.bitCnt ≠ s.ssr.bitTarget → exec .fall s = .next s)

/-- `BB` in `CHECK_ADDRESS`: a match acknowledges, a mismatch goes idle, nothing else changes; gated off it does
nothing (42_serial_receiver.md R146, R147, R148). It holds in every state: a `BB` given before `sr` was ever filled,
which R160 says a model faults or refuses, runs on the free value there (the model's choice, log 3). -/
def Obligations.BoundaryOfAddress : Prop :=
  ∀ s : State,
    (s.ssrEn = false ∨ s.ssr.mode = .startOnly → exec .bb s = .next s) ∧
    (s.ssrEn = true → s.ssr.mode = .counting → s.ssr.state = .checkAddress →
      (s.ssr.sr.toNat / 2 = s.cfg.slaveAddr → exec .bb s = .next { s with ssr := { s.ssr with
        sdaDrive := true, bitCnt := 0, bitTarget := 1, state := .recvDataWait, rxStatus := .pending } }) ∧
      (s.ssr.sr.toNat / 2 ≠ s.cfg.slaveAddr → exec .bb s = .next { s with ssr := { s.ssr with
        mode := .startOnly, bitCnt := 0 } }))

/-- `BB` in `RECV_DATA_WAIT`: the acknowledge ends and a data byte follows, or, after a termination, the abort
(42_serial_receiver.md R149). -/
def Obligations.BoundaryOfAcknowledge : Prop :=
  ∀ s : State, s.ssrEn = true → s.ssr.mode = .counting → s.ssr.state = .recvDataWait →
    (s.ssr.rxStatus = .terminated → exec .bb s = .next { s with ssr := { s.ssr with
      state := .checkAddress, mode := .startOnly, sdaDrive := false, bitCnt := 0, bitTarget := 8 } }) ∧
    (s.ssr.rxStatus ≠ .terminated → exec .bb s = .next { s with ssr := { s.ssr with
      sdaDrive := false, bitCnt := 0, bitTarget := 8, state := .recvDataAckSend } })

/-- `BB` in `RECV_DATA_ACK_SEND`: the byte is latched if the reception is pending and dropped otherwise, and
acknowledged either way (42_serial_receiver.md R150). It holds in every state: an `sr` never filled since reset, on
which R160 says a model faults or refuses, is latched as the free value it holds (the model's choice, log 3). -/
def Obligations.BoundaryOfData : Prop :=
  ∀ s : State, s.ssrEn = true → s.ssr.mode = .counting → s.ssr.state = .recvDataAckSend →
    (s.ssr.rxStatus = .pending → exec .bb s = .next { s with ssr := { s.ssr with
      rxData := s.ssr.sr, rxStatus := .received, sdaDrive := true, bitCnt := 0, bitTarget := 1,
      state := .recvDataWait } }) ∧
    (s.ssr.rxStatus ≠ .pending → exec .bb s = .next { s with
      ssr := { s.ssr with sdaDrive := true, bitCnt := 0, bitTarget := 1, state := .recvDataWait }
      ghost := ⟨s.ghost.zcDropped, s.ghost.rxDropped + 1, s.ghost.log ++ [.rxOverrun s.ssr.sr]⟩ })

/-- An idle receiver ignores the bus: over every trace without a genuine start (`START 0`) and without a reset, nothing
is shifted, latched or acknowledged, and no byte becomes received; a `START 1`, or a stop, leaves it idle
(42_serial_receiver.md R142, R148, R159; 43_host_consumer.md R181). -/
def Obligations.IdleUntilStart : Prop :=
  ∀ (l : List Instr) (s t : State), (∀ i ∈ l, i ≠ .reset ∧ i ≠ .start false) →
    s.ssr.mode = .startOnly → s.ssr.sdaDrive = false → runOps l s = .next t →
    t.ssr.mode = .startOnly ∧ t.ssr.sr = s.ssr.sr ∧ t.ssr.rxData = s.ssr.rxData ∧ t.ssr.sdaDrive = false ∧
      (t.ssr.rxStatus = .received → s.ssr.rxStatus = .received)

/-! ### The symbols of the wire (30_encoding.md R81 to R84, R94) -/

/-- A wire symbol is its clocks: as an instruction it runs the expansion `BYTE` or `ACKCLK` (30_encoding.md R94;
20_memory.md R63) whole, one operation after the other, in every state. That it is one instruction and runs so in
every state is the model's choice (log 10). -/
def Obligations.WireSymbolsAreTheirClocks : Prop :=
  ∀ (s : State) (b : Byte) (addr : BitVec 7) (rw : Bool),
    exec (.wireData b) s = runOps (byteOps b) s ∧
    exec (.wireAddrMismatch addr rw) s = runOps (byteOps (addr ++ BitVec.ofBool rw)) s ∧
    exec (.wireAddrMatch rw) s =
      runOps (byteOps (BitVec.ofNat 7 s.cfg.slaveAddr ++ BitVec.ofBool rw)) s ∧
    exec .wireAck s = runOps ackOps s

/-- An address byte at a receiver that has seen a start: this block's address is acknowledged, any other sends
it idle, and the read/write flag makes no difference (30_encoding.md R81; 42_serial_receiver.md R147, R148,
R153; the byte's clocks as one instruction are log 10). -/
def Obligations.AddressByteOnTheWire : Prop :=
  ∀ (s : State) (addr : BitVec 7) (rw : Bool) (v : Byte), configOK s.cfg = true → s.ssrEn = true →
    s.ssr.mode = .counting → s.ssr.state = .checkAddress → s.ssr.bitCnt = 0 → s.ssr.bitTarget = 8 →
    s.ssr.sdaDrive = false →
    (v.toNat = 2 * s.cfg.slaveAddr + rw.toNat → exec (.wireAddrMatch rw) s = .next { s with ssr := { s.ssr with
      sr := v, sdaDrive := true, bitCnt := 0, bitTarget := 1, state := .recvDataWait,
      rxStatus := .pending } }) ∧
    (addr.toNat ≠ s.cfg.slaveAddr → v.toNat = 2 * addr.toNat + rw.toNat →
      exec (.wireAddrMismatch addr rw) s = .next { s with ssr := { s.ssr with
        sr := v, mode := .startOnly, bitCnt := 0 } })

/-- A data byte at an addressed receiver: all 8 bits arrive, most significant first; it is latched if the
reception is pending and dropped otherwise, and acknowledged either way (30_encoding.md R83;
20_memory.md R63; 42_serial_receiver.md R150; the byte's clocks as one instruction are log 10). -/
def Obligations.DataByteOnTheWire : Prop :=
  ∀ (s : State) (d : Byte), s.ssrEn = true → s.ssr.mode = .counting → s.ssr.state = .recvDataAckSend →
    s.ssr.bitCnt = 0 → s.ssr.bitTarget = 8 → s.ssr.sdaDrive = false →
    (s.ssr.rxStatus = .pending → exec (.wireData d) s = .next { s with ssr := { s.ssr with
      sr := d, rxData := d, rxStatus := .received, sdaDrive := true, bitCnt := 0, bitTarget := 1,
      state := .recvDataWait } }) ∧
    (s.ssr.rxStatus ≠ .pending → exec (.wireData d) s = .next { s with
      ssr := { s.ssr with sr := d, sdaDrive := true, bitCnt := 0, bitTarget := 1, state := .recvDataWait }
      ghost := ⟨s.ghost.zcDropped, s.ghost.rxDropped + 1, s.ghost.log ++ [.rxOverrun d]⟩ })

/-- The acknowledge bit lasts one clock: the block samples its own 0, releases the line and waits for a data
byte (30_encoding.md R82, R94; 42_serial_receiver.md R144, R149; the clock as one instruction is log 10). -/
def Obligations.AcknowledgeOnTheWire : Prop :=
  ∀ (s : State) (v : Byte), s.ssrEn = true → s.ssr.mode = .counting → s.ssr.state = .recvDataWait →
    s.ssr.bitCnt = 0 → s.ssr.bitTarget = 1 → s.ssr.sdaDrive = true → s.ssr.rxStatus ≠ .terminated →
    v.toNat = 2 * s.ssr.sr.toNat % 256 →
    exec .wireAck s = .next { s with ssr := { s.ssr with
      sr := v, sdaDrive := false, bitCnt := 0, bitTarget := 8, state := .recvDataAckSend } }

/-- While the clock is gated off every symbol of the wire passes without effect (42_serial_receiver.md R148,
R158; the symbol as one instruction is log 10). -/
def Obligations.GatedReceiverIgnoresTheWire : Prop :=
  ∀ (s : State) (d : Byte) (addr : BitVec 7) (rw : Bool), s.ssrEn = false ∨ s.ssr.mode = .startOnly →
    exec (.wireData d) s = .next s ∧ exec (.wireAddrMatch rw) s = .next s ∧
    exec (.wireAddrMismatch addr rw) s = .next s ∧ exec .wireAck s = .next s

/-- A transaction delivers its bytes: after a start and this block's address byte, any number of data bytes, each
taken by the host before the next, are returned to the host whole and in order, and nothing is dropped
(30_encoding.md R84; 42_serial_receiver.md R155, R156, R161; 43_host_consumer.md R174; `reads` is log 5, the wire
symbols as instructions log 10). -/
def Obligations.TransactionDeliversItsBytes : Prop :=
  ∀ (s : State) (rw : Bool) (bs : List Byte), configOK s.cfg = true → s.ssrEn = true →
    ∃ t, runOps (.start false :: .wireAddrMatch rw ::
        bs.flatMap fun b => [.wireAck, .wireData b, .rxtake]) s = .next t ∧
      t.reads = s.reads ++ bs.map (fun b => ⟨6, BitVec.ofNat 16 (0x200 + b.toNat)⟩) ∧
      t.ssr.rxStatus = .pending ∧ t.ssr.sdaDrive = true ∧ t.ghost = s.ghost

/-! ### The host's operations (43_host_consumer.md) -/

/-- `REQWR ch, v` stores `min(v, 100)` in that channel's request, enabled or not, and changes nothing else
(43_host_consumer.md R173). -/
def Obligations.RequestWrite : Prop :=
  ∀ (s : State) (ch : BitVec 2) (v : Byte) (c : Chan), s.chans[ch.toNat]? = some c →
    ∃ t q, exec (.reqwr ch v) s = .next t ∧ t = { s with chans := t.chans } ∧
      t.chans.length = s.chans.length ∧ q.toNat = min v.toNat 100 ∧
      t.chans[ch.toNat]? = some { c with requested := q } ∧
      ∀ k, k ≠ ch.toNat → t.chans[k]? = s.chans[k]?

/-- `RXTAKE` returns the status in [9:8] and the latch in [7:0], takes a received byte, and changes nothing else;
`RD 0x06` is the same operation (43_host_consumer.md R174, R172). That a returned value joins `reads` is the
model's choice (log 5), and so is that a latch never written returns its free value (log 3). -/
def Obligations.ReceiveTake : Prop :=
  ∀ (s : State) (v : RegData), v.toNat = s.ssr.rxData.toNat + 256 * rxStatusNum s.ssr.rxStatus →
    exec (.rd 6) s = exec .rxtake s ∧
    (s.ssr.rxStatus = .received → exec .rxtake s = .next { s with
      ssr := { s.ssr with rxStatus := .pending }, reads := s.reads ++ [⟨6, v⟩] }) ∧
    (s.ssr.rxStatus ≠ .received → exec .rxtake s = .next { s with reads := s.reads ++ [⟨6, v⟩] })

/-- `RD 0x06` is `RXTAKE`; `RD n` of every other register returns the bits of 10_state.md R41, unlisted bits 0, and
changes nothing (43_host_consumer.md R172; 20_memory.md R61). That the value joins `reads` is the model's choice
(log 5), and so is that `RX_DATA` and `SR` return their free values before they are written (log 3). -/
def Obligations.RegisterMap : Prop :=
  ∀ (s : State) (n : RegNum), configOK s.cfg = true → s.chans.length = s.cfg.nCh →
    holdsRegister s.cfg.nCh n.toNat → (n = 6 → exec (.rd n) s = exec .rxtake s) ∧
    (n ≠ 6 → ∃ v : RegData, exec (.rd n) s = .next { s with reads := s.reads ++ [⟨n, v⟩] } ∧
      (n = 0 → ∀ i, v.getLsbD i = if i = 0 then s.zcEn else if i = 1 then s.ssrEn
        else if i < 5 then (s.chans[i - 2]?.map Chan.cmEn).getD false else false) ∧
      (n = 1 → ∀ i, v.getLsbD i = if i < 3 then (s.chans[i]?.map Chan.zcp).getD false
        else if i < 6 then (s.chans[i - 3]?.map Chan.drive).getD false
        else if i = 6 then s.ssr.sdaDrive else false) ∧
      (n = 2 → v.toNat =
        rxStatusNum s.ssr.rxStatus + 4 * ssrStateNum s.ssr.state + 16 * ssrModeNum s.ssr.mode) ∧
      (n = 3 → v.toNat = s.ssr.rxData.toNat) ∧
      (n = 4 → v.toNat = s.ssr.bitCnt.toNat + 16 * s.ssr.bitTarget.toNat) ∧
      (n = 5 → v.toNat = s.ssr.sr.toNat) ∧
      ∀ c, s.chans[n.toNat % 4]? = some c →
        (n.toNat / 4 = 4 → v.toNat = c.requested.toNat) ∧ (n.toNat / 4 = 5 → v.toNat = c.applied.toNat) ∧
        (n.toNat / 4 = 6 → v.toNat = c.cmp.toNat) ∧ (n.toNat / 4 = 7 → v.toNat = c.cnt.toNat))

/-- The host port: a read is `RD`, a write to `REQ_DIM[ch]` is `REQWR`, a write to a read-only register or to a
number that holds none is refused (20_memory.md R61, R65; 10_state.md R41). -/
def Obligations.HostPortAccess : Prop :=
  ∀ (s u : State) (n : RegNum) (rest : List Input), recordOK s.cfg = true → s.ports = [] →
    u = { s with trace := rest, pos := s.pos + 1 } →
    (s.trace = .hostRead n :: rest → step s = exec (.rd n) u) ∧
    (∀ v : RegData, s.trace = .hostWrite n v :: rest →
      (∀ (ch : BitVec 2) (b : Byte), n.toNat = 16 + ch.toNat → ch.toNat < s.cfg.nCh → v.toNat = b.toNat →
        step s = exec (.reqwr ch b) u) ∧
      (n.toNat ≤ 6 ∨ (20 ≤ n.toNat ∧ n.toNat < 32 ∧ n.toNat % 4 < s.cfg.nCh) →
        step s = .refused (.readOnlyRegister n)) ∧
      (¬ holdsRegister s.cfg.nCh n.toNat →
        step s = .refused (.noSuchRegister n)))

/-- `receive_packet(buf, size)`: the call starts with an empty buffer, and is over at once for `size = 0`; in each
turn a received byte joins the buffer and the call ends when it has `size` bytes, a termination ends it with a short
count, and while the reception is pending it polls again (43_host_consumer.md R175). That the host's process is state
which takes one poll in each `hostStep`, and that a call leaves the consumer loop, is the model's choice (log 8), and
so is the list `reads` (log 5). -/
def Obligations.ReceivePacketPolls : Prop :=
  ∀ (s : State) (rest : List Input), recordOK s.cfg = true → s.ports = [] →
    (∀ size : Nat, s.trace = .recvPacket size :: rest → ∃ t, step s = .next t ∧
      t = { s with trace := rest, pos := s.pos + 1, host := t.host } ∧
      t.host.buf = [] ∧ t.host.size = size ∧ t.host.consumer = false ∧ (t.host.running = true ↔ 0 < size)) ∧
    (∀ v : RegData, s.trace = .hostStep :: rest → s.host.running = true →
      v.toNat = s.ssr.rxData.toNat + 256 * rxStatusNum s.ssr.rxStatus →
      (s.ssr.rxStatus = .received → step s = .next { s with
        trace := rest, pos := s.pos + 1, reads := s.reads ++ [⟨6, v⟩]
        ssr := { s.ssr with rxStatus := .pending }
        host := { s.host with
          buf := s.host.buf ++ [s.ssr.rxData]
          running := decide (s.host.buf.length + 1 < s.host.size) } }) ∧
      (s.ssr.rxStatus = .terminated → step s = .next { s with
        trace := rest, pos := s.pos + 1, reads := s.reads ++ [⟨6, v⟩]
        host := { s.host with running := false } }) ∧
      (s.ssr.rxStatus = .pending → step s = .next { s with
        trace := rest, pos := s.pos + 1, reads := s.reads ++ [⟨6, v⟩] }))

/-- The host enters the consumer loop by a call of `receive_packet(buf, PKT_SIZE)`, with an empty buffer
(43_host_consumer.md R177; the host's process is state of the model, log 8). -/
def Obligations.ConsumerCallsReceive : Prop :=
  ∀ (s : State) (rest : List Input), recordOK s.cfg = true → s.ports = [] → s.trace = .consumer :: rest →
    step s = .next { s with
      trace := rest, pos := s.pos + 1
      host := { consumer := true, running := true, size := 2, buf := [] } }

/-- The consumer with a full packet: `PKTAPPLY`, with the sentinel clamp, or, for an index that names no channel,
`BadIndex` and no write; then it calls `receive_packet` again (43_host_consumer.md R177, R178; the
sentinel clamp is what R178 calls "this spec's reading"; the host's process is state of the model, log 8). -/
def Obligations.ConsumerAppliesPackets : Prop :=
  ∀ (s : State) (rest : List Input) (i d : Byte), recordOK s.cfg = true →
    s.chans.length = s.cfg.nCh → s.ports = [] → s.trace = .hostStep :: rest →
    s.host.consumer = true → s.host.running = false → s.host.buf = [i, d] →
    (s.cfg.nCh ≤ i.toNat → step s = .next { s with
      trace := rest, pos := s.pos + 1, host := { s.host with running := true, buf := [] }
      ghost := ⟨s.ghost.zcDropped, s.ghost.rxDropped, s.ghost.log ++ [.badIndex i]⟩ }) ∧
    (∀ c, s.chans[i.toNat]? = some c → ∃ t q, step s = .next t ∧
      t = { s with
        trace := rest, pos := s.pos + 1, host := { s.host with running := true, buf := [] }
        chans := t.chans } ∧
      q.toNat = max (s.cfg.minPct - 1) (min (min d.toNat 100) (s.cfg.maxPct + 1)) ∧
      t.chans[i.toNat]? = some { c with requested := q } ∧ ∀ k, k ≠ i.toNat → t.chans[k]? = s.chans[k]?)

/-- The consumer with a short packet discards it: `ShortPacket`, no write, and `receive_packet` is called again
(43_host_consumer.md R177; 60_exceptions.md R190). That one `hostStep` does both on the host's process in the state is
the model's choice (log 8). -/
def Obligations.ConsumerDropsShortPackets : Prop :=
  ∀ (s : State) (rest : List Input), recordOK s.cfg = true → s.ports = [] →
    s.trace = .hostStep :: rest → s.host.consumer = true → s.host.running = false →
    s.host.buf.length < 2 →
    step s = .next { s with
      trace := rest, pos := s.pos + 1, host := { s.host with running := true, buf := [] }
      ghost := ⟨s.ghost.zcDropped, s.ghost.rxDropped, s.ghost.log ++ [.shortPacket s.host.buf.length]⟩ }

/-- The boot sequence, from every state: the sources are enabled, every request stands at the lower sentinel `MIN - 1`
while the applied brightness is still 0, every pin is off and the receiver waits for a start
(70_reset_and_hazards.md R222, R223; 43_host_consumer.md R179). -/
def Obligations.BootReachesTheLowerRail : Prop :=
  ∀ s : State, configOK s.cfg = true → ∃ t, runOps (bootOps s.cfg) s = .next t ∧
    t.zcEn = true ∧ t.ssrEn = true ∧ t.ssr.mode = .startOnly ∧ t.ssr.rxStatus = .terminated ∧
    t.chans.length = s.cfg.nCh ∧
    ∀ c ∈ t.chans, c.requested.toNat + 1 = s.cfg.minPct ∧ c.applied = 0 ∧ c.drive = false ∧ c.zcp = false ∧
      c.cmEn = true

/-! ### The pin front end (30_encoding.md R96) -/

/-- The rows of 30_encoding.md R96: which operation one change at one port emits, and what becomes of the line
history. The rows of the pending start are what R96 calls "this spec's reading"; that `rst` emits one `RESET` in
every sample that asserts it is the model's choice (log 7). -/
def Obligations.FrontEndRows : Prop :=
  ∀ (s : State) (e : PortEvent) (rest : List PortEvent), recordOK s.cfg = true → s.ports = e :: rest →
    (e = .rst → step s = exec .reset { s with ports := rest }) ∧
    (e = .tick → step s = exec .tick { s with ports := rest }) ∧
    (∀ b, e = .zcIn b → ∀ u, u = { s with ports := rest, front := { s.front with zcIn := b, zcPrev := b } } →
      (s.front.zcPrev = false → b = true → s.cfg.zcEdge ≠ .falling → step s = exec .zc u) ∧
      (s.front.zcPrev = true → b = false → s.cfg.zcEdge ≠ .rising → step s = exec .zc u) ∧
      (s.front.zcPrev = false → b = true → s.cfg.zcEdge = .falling → step s = .next u) ∧
      (s.front.zcPrev = true → b = false → s.cfg.zcEdge = .rising → step s = .next u)) ∧
    (e = .scl true → s.front.sclPrev = false →
      step s = exec (.rise s.front.sdaIn)
        { s with ports := rest, front := { s.front with scl := true, sclPrev := true } }) ∧
    (e = .scl false → s.front.sclPrev = true → s.front.startPending = true →
      step s = exec (.start false) { s with
        ports := rest, front := { s.front with scl := false, sclPrev := false, startPending := false } }) ∧
    (e = .scl false → s.front.sclPrev = true → s.front.startPending = false →
      step s = exec .fall { s with
        ports := rest, front := { s.front with scl := false, sclPrev := false } }) ∧
    (e = .sdaIn false → s.front.sdaPrev = true → s.front.scl = true → s.front.startPending = false →
      step s = .next { s with
        ports := rest
        front := { s.front with sdaIn := false, sdaPrev := false, startPending := s.ssrEn } }) ∧
    (e = .sdaIn true → s.front.sdaPrev = false → s.front.scl = true → s.front.startPending = true →
      step s = exec (.start true) { s with
        ports := rest, front := { s.front with sdaIn := true, sdaPrev := true, startPending := false } }) ∧
    (e = .sdaIn true → s.front.sdaPrev = false → s.front.scl = true → s.front.startPending = false →
      step s = exec .stop { s with
        ports := rest, front := { s.front with sdaIn := true, sdaPrev := true } }) ∧
    (∀ b, e = .sdaIn b → s.front.scl = false →
      step s = .next { s with ports := rest, front := { s.front with sdaIn := b, sdaPrev := b } })

/-- A sample in which both serial lines change is refused; any other leaves exactly its port changes to be
served, each once, and touches no register (30_encoding.md R96; 60_exceptions.md R198; that a sample is served one
change at a time is the model's choice, log 7). -/
def Obligations.SampleBecomesItsChanges : Prop :=
  ∀ (s : State) (p : Sample) (rest : List Input), recordOK s.cfg = true → s.ports = [] →
    s.trace = .sample p :: rest →
    (p.scl ≠ s.front.sclPrev → p.sdaIn ≠ s.front.sdaPrev → step s = .refused .bothLinesChange) ∧
    (p.scl = s.front.sclPrev ∨ p.sdaIn = s.front.sdaPrev → ∃ t, step s = .next t ∧
      t = { s with trace := rest, pos := s.pos + 1, ports := t.ports, draws := t.draws } ∧
      t.ports.Nodup ∧
      ∀ e, e ∈ t.ports ↔ (e = .rst ∧ p.rst = true) ∨ (e = .tick ∧ p.tick = true) ∨
        (e = .zcIn p.zcIn ∧ p.zcIn ≠ s.front.zcPrev) ∨ (e = .scl p.scl ∧ p.scl ≠ s.front.sclPrev) ∨
        (e = .sdaIn p.sdaIn ∧ p.sdaIn ≠ s.front.sdaPrev))

/-- Every order of the coinciding events of a sample is one the step can take: the changes wait in the arrangement
that the free value `Config.eventOrder` picks, a fresh one for each sample, and every order of them, and of any list,
is an arrangement (60_exceptions.md R198; that the order is a free value drawn by `draws` is the model's choice,
log 7). -/
def Obligations.EveryOrderCanOccur : Prop :=
  (∀ l m : List PortEvent, m.Perm l ↔ ∃ k, arrange l k = m) ∧
  ∀ (s : State) (p : Sample) (rest : List Input), recordOK s.cfg = true → s.ports = [] →
    s.trace = .sample p :: rest → (p.scl = s.front.sclPrev ∨ p.sdaIn = s.front.sdaPrev) →
    step s = .next { s with
      trace := rest, pos := s.pos + 1, draws := s.draws + 1
      ports := arrange (sampleEvents s.front p) (Config.eventOrder s.draws) } ∧
    ∀ m, m.Perm (sampleEvents s.front p) ↔ ∃ k, arrange (sampleEvents s.front p) k = m

/-! ### Enables, ownership, stops (10_state.md R34, R35, R42; 60_exceptions.md R196) -/

/-- An event whose source is disabled changes nothing (60_exceptions.md R193, R194, R196). -/
def Obligations.DisabledEventsAreIgnored : Prop :=
  ∀ (s : State) (src : EventSource) (sample : Bool), sourceEnabled s src = false →
    (∀ ch, src = .compareMatch ch → ch.toNat < s.chans.length) → exec (servedBy sample src) s = .next s

/-- Until `INIT` no event is served and `TICK` only counts (70_reset_and_hazards.md R221). -/
def Obligations.NothingServedBeforeInit : Prop :=
  ∀ s : State, s.zcEn = false → s.ssrEn = false → (∀ c ∈ s.chans, c.cmEn = false) →
    (∀ i : Instr, (i = .zc ∨ (∃ ch : BitVec 2, i = .cm ch ∧ ch.toNat < s.chans.length) ∨ (∃ b, i = .start b) ∨
      i = .stop ∨ (∃ b, i = .rise b) ∨ i = .fall ∨ i = .bb) → exec i s = .next s) ∧
    exec .tick s = .next { s with chans := s.chans.mapIdx fun ch c =>
      { c with cnt := BitVec.ofNat 16 ((c.cnt.toNat + 1) % 2 ^ s.cfg.width ch) } }

/-- The writer matrix: an operation leaves as it was every part of the state the matrix does not give it
(10_state.md R42). One cell differs: the column `RESET` of the matrix is blank for `sr` and `rx_data`, and the model's
`RESET` draws a fresh free value for each (the model's choice, log 4; 10_state.md R43 has them "unspecified" after it,
43_host_consumer.md R170). -/
def Obligations.OnlyOwnersWrite : Prop :=
  ∀ (i : Instr) (s t : State) (p : StatePart), exec i s = .next t → mayWrite i p = false → samePart s t p

/-- No step changes the parameter record (00_scope.md R7; 10_state.md R35). -/
def Obligations.ParametersNeverChange : Prop :=
  ∀ s t : State, step s = .next t → t.cfg = s.cfg

/-- A reserved operation code is not an operation of the block: as a term it stops by its name
(30_encoding.md R90). -/
def Obligations.ReservedCodesStop : Prop :=
  ∀ (s : State) (x : BitVec 12), exec (.reservedD x) s = .refused (.reservedOp 0xD) ∧
    exec (.reservedE x) s = .refused (.reservedOp 0xE) ∧ exec (.reservedF x) s = .refused (.reservedOp 0xF)

/-- `CM` and `REQWR` on a channel that does not exist, and `RD` of a number that holds no register, are refused
by name (10_state.md R41; 30_encoding.md R90). -/
def Obligations.AbsentChannelsAndRegistersStop : Prop :=
  ∀ (s : State) (ch : BitVec 2) (v : Byte) (n : RegNum),
    (s.chans.length ≤ ch.toNat → exec (.cm ch) s = .refused (.noSuchChannel ch.toNat) ∧
      exec (.reqwr ch v) s = .refused (.noSuchChannel ch.toNat)) ∧
    (¬ holdsRegister s.cfg.nCh n.toNat →
      exec (.rd n) s = .refused (.noSuchRegister n))

/-! ### Invariants -/

/-- Every step keeps the ranges of the channels and `cmp[ch] == CMPVAL(ch, applied_dim[ch])`
(10_state.md R26, R44). -/
def Obligations.StepKeepsTheChannels : Prop :=
  ∀ s t : State, ChansInv s → step s = .next t → ChansInv t

/-- Every step keeps the ranges of the receiver, and that in the data states the reception is not terminated and
the line is pulled only in the acknowledge clock (10_state.md R44, R45). -/
def Obligations.StepKeepsTheReceiver : Prop :=
  ∀ s t : State, SsrInv s.ssr → step s = .next t → SsrInv t.ssr

/-- Every step keeps the line history equal to the pins, and a pending start only while the data line is low
with the clock high (10_state.md R37; 30_encoding.md R96). -/
def Obligations.StepKeepsTheFrontEnd : Prop :=
  ∀ s t : State, FrontInv s → step s = .next t → FrontInv t

/-- The invariants hold after reset, under every well-formed record (10_state.md R43 to R45; for the line
history, which rests on the levels the model starts from, log 6). -/
def Obligations.ResetMeetsTheInvariants : Prop :=
  ∀ cfg : Config, configOK cfg = true →
    ChansInv (State.resetWith cfg) ∧ SsrInv (State.resetWith cfg).ssr ∧ FrontInv (State.resetWith cfg)
end

