-- ==== Sys2Proof/Laws/State.lean ====
section
/-! SUPPORT. One lemma per field per update of the state, each true by definition, so that no later proof
unfolds an update. -/

namespace Sys2Proof.Machine

@[simp] theorem withChans_cfg (s : State) (cs : List Chan) : (withChans s cs).cfg = s.cfg := rfl
@[simp] theorem withChans_zcEn (s : State) (cs : List Chan) : (withChans s cs).zcEn = s.zcEn := rfl
@[simp] theorem withChans_ssrEn (s : State) (cs : List Chan) : (withChans s cs).ssrEn = s.ssrEn := rfl
@[simp] theorem withChans_chans (s : State) (cs : List Chan) : (withChans s cs).chans = cs := rfl
@[simp] theorem withChans_ssr (s : State) (cs : List Chan) : (withChans s cs).ssr = s.ssr := rfl
@[simp] theorem withChans_front (s : State) (cs : List Chan) : (withChans s cs).front = s.front := rfl
@[simp] theorem withChans_ghost (s : State) (cs : List Chan) : (withChans s cs).ghost = s.ghost := rfl
@[simp] theorem withChans_host (s : State) (cs : List Chan) : (withChans s cs).host = s.host := rfl
@[simp] theorem withChans_reads (s : State) (cs : List Chan) : (withChans s cs).reads = s.reads := rfl
@[simp] theorem withChans_draws (s : State) (cs : List Chan) : (withChans s cs).draws = s.draws := rfl
@[simp] theorem withChans_ports (s : State) (cs : List Chan) : (withChans s cs).ports = s.ports := rfl
@[simp] theorem withChans_trace (s : State) (cs : List Chan) : (withChans s cs).trace = s.trace := rfl
@[simp] theorem withChans_pos (s : State) (cs : List Chan) : (withChans s cs).pos = s.pos := rfl

@[simp] theorem withSsr_cfg (s : State) (r : Ssr) : (withSsr s r).cfg = s.cfg := rfl
@[simp] theorem withSsr_zcEn (s : State) (r : Ssr) : (withSsr s r).zcEn = s.zcEn := rfl
@[simp] theorem withSsr_ssrEn (s : State) (r : Ssr) : (withSsr s r).ssrEn = s.ssrEn := rfl
@[simp] theorem withSsr_chans (s : State) (r : Ssr) : (withSsr s r).chans = s.chans := rfl
@[simp] theorem withSsr_ssr (s : State) (r : Ssr) : (withSsr s r).ssr = r := rfl
@[simp] theorem withSsr_front (s : State) (r : Ssr) : (withSsr s r).front = s.front := rfl
@[simp] theorem withSsr_ghost (s : State) (r : Ssr) : (withSsr s r).ghost = s.ghost := rfl
@[simp] theorem withSsr_host (s : State) (r : Ssr) : (withSsr s r).host = s.host := rfl
@[simp] theorem withSsr_reads (s : State) (r : Ssr) : (withSsr s r).reads = s.reads := rfl
@[simp] theorem withSsr_draws (s : State) (r : Ssr) : (withSsr s r).draws = s.draws := rfl
@[simp] theorem withSsr_ports (s : State) (r : Ssr) : (withSsr s r).ports = s.ports := rfl
@[simp] theorem withSsr_trace (s : State) (r : Ssr) : (withSsr s r).trace = s.trace := rfl
@[simp] theorem withSsr_pos (s : State) (r : Ssr) : (withSsr s r).pos = s.pos := rfl

@[simp] theorem withFront_cfg (s : State) (f : Front) : (withFront s f).cfg = s.cfg := rfl
@[simp] theorem withFront_zcEn (s : State) (f : Front) : (withFront s f).zcEn = s.zcEn := rfl
@[simp] theorem withFront_ssrEn (s : State) (f : Front) : (withFront s f).ssrEn = s.ssrEn := rfl
@[simp] theorem withFront_chans (s : State) (f : Front) : (withFront s f).chans = s.chans := rfl
@[simp] theorem withFront_ssr (s : State) (f : Front) : (withFront s f).ssr = s.ssr := rfl
@[simp] theorem withFront_front (s : State) (f : Front) : (withFront s f).front = f := rfl
@[simp] theorem withFront_ghost (s : State) (f : Front) : (withFront s f).ghost = s.ghost := rfl
@[simp] theorem withFront_host (s : State) (f : Front) : (withFront s f).host = s.host := rfl
@[simp] theorem withFront_reads (s : State) (f : Front) : (withFront s f).reads = s.reads := rfl
@[simp] theorem withFront_draws (s : State) (f : Front) : (withFront s f).draws = s.draws := rfl
@[simp] theorem withFront_ports (s : State) (f : Front) : (withFront s f).ports = s.ports := rfl
@[simp] theorem withFront_trace (s : State) (f : Front) : (withFront s f).trace = s.trace := rfl
@[simp] theorem withFront_pos (s : State) (f : Front) : (withFront s f).pos = s.pos := rfl

@[simp] theorem withHost_cfg (s : State) (h : HostProc) : (withHost s h).cfg = s.cfg := rfl
@[simp] theorem withHost_zcEn (s : State) (h : HostProc) : (withHost s h).zcEn = s.zcEn := rfl
@[simp] theorem withHost_ssrEn (s : State) (h : HostProc) : (withHost s h).ssrEn = s.ssrEn := rfl
@[simp] theorem withHost_chans (s : State) (h : HostProc) : (withHost s h).chans = s.chans := rfl
@[simp] theorem withHost_ssr (s : State) (h : HostProc) : (withHost s h).ssr = s.ssr := rfl
@[simp] theorem withHost_front (s : State) (h : HostProc) : (withHost s h).front = s.front := rfl
@[simp] theorem withHost_ghost (s : State) (h : HostProc) : (withHost s h).ghost = s.ghost := rfl
@[simp] theorem withHost_host (s : State) (h : HostProc) : (withHost s h).host = h := rfl
@[simp] theorem withHost_reads (s : State) (h : HostProc) : (withHost s h).reads = s.reads := rfl
@[simp] theorem withHost_draws (s : State) (h : HostProc) : (withHost s h).draws = s.draws := rfl
@[simp] theorem withHost_ports (s : State) (h : HostProc) : (withHost s h).ports = s.ports := rfl
@[simp] theorem withHost_trace (s : State) (h : HostProc) : (withHost s h).trace = s.trace := rfl
@[simp] theorem withHost_pos (s : State) (h : HostProc) : (withHost s h).pos = s.pos := rfl

@[simp] theorem returnRead_cfg (s : State) (n : RegNum) (v : RegData) : (returnRead s n v).cfg = s.cfg := rfl
@[simp] theorem returnRead_zcEn (s : State) (n : RegNum) (v : RegData) : (returnRead s n v).zcEn = s.zcEn := rfl
@[simp] theorem returnRead_ssrEn (s : State) (n : RegNum) (v : RegData) : (returnRead s n v).ssrEn = s.ssrEn := rfl
@[simp] theorem returnRead_chans (s : State) (n : RegNum) (v : RegData) : (returnRead s n v).chans = s.chans := rfl
@[simp] theorem returnRead_ssr (s : State) (n : RegNum) (v : RegData) : (returnRead s n v).ssr = s.ssr := rfl
@[simp] theorem returnRead_front (s : State) (n : RegNum) (v : RegData) : (returnRead s n v).front = s.front := rfl
@[simp] theorem returnRead_ghost (s : State) (n : RegNum) (v : RegData) : (returnRead s n v).ghost = s.ghost := rfl
@[simp] theorem returnRead_host (s : State) (n : RegNum) (v : RegData) : (returnRead s n v).host = s.host := rfl
@[simp] theorem returnRead_reads (s : State) (n : RegNum) (v : RegData) : (returnRead s n v).reads = s.reads ++ [⟨n, v⟩] := rfl
@[simp] theorem returnRead_draws (s : State) (n : RegNum) (v : RegData) : (returnRead s n v).draws = s.draws := rfl
@[simp] theorem returnRead_ports (s : State) (n : RegNum) (v : RegData) : (returnRead s n v).ports = s.ports := rfl
@[simp] theorem returnRead_trace (s : State) (n : RegNum) (v : RegData) : (returnRead s n v).trace = s.trace := rfl
@[simp] theorem returnRead_pos (s : State) (n : RegNum) (v : RegData) : (returnRead s n v).pos = s.pos := rfl

@[simp] theorem raise_cfg (s : State) (c : Condition) : (raise s c).cfg = s.cfg := rfl
@[simp] theorem raise_zcEn (s : State) (c : Condition) : (raise s c).zcEn = s.zcEn := rfl
@[simp] theorem raise_ssrEn (s : State) (c : Condition) : (raise s c).ssrEn = s.ssrEn := rfl
@[simp] theorem raise_chans (s : State) (c : Condition) : (raise s c).chans = s.chans := rfl
@[simp] theorem raise_ssr (s : State) (c : Condition) : (raise s c).ssr = s.ssr := rfl
@[simp] theorem raise_front (s : State) (c : Condition) : (raise s c).front = s.front := rfl
@[simp] theorem raise_ghost (s : State) (c : Condition) : (raise s c).ghost = logCondition s.ghost c := rfl
@[simp] theorem raise_host (s : State) (c : Condition) : (raise s c).host = s.host := rfl
@[simp] theorem raise_reads (s : State) (c : Condition) : (raise s c).reads = s.reads := rfl
@[simp] theorem raise_draws (s : State) (c : Condition) : (raise s c).draws = s.draws := rfl
@[simp] theorem raise_ports (s : State) (c : Condition) : (raise s c).ports = s.ports := rfl
@[simp] theorem raise_trace (s : State) (c : Condition) : (raise s c).trace = s.trace := rfl
@[simp] theorem raise_pos (s : State) (c : Condition) : (raise s c).pos = s.pos := rfl

@[simp] theorem popPort_cfg (s : State) (rest : List PortEvent) : (popPort s rest).cfg = s.cfg := rfl
@[simp] theorem popPort_zcEn (s : State) (rest : List PortEvent) : (popPort s rest).zcEn = s.zcEn := rfl
@[simp] theorem popPort_ssrEn (s : State) (rest : List PortEvent) : (popPort s rest).ssrEn = s.ssrEn := rfl
@[simp] theorem popPort_chans (s : State) (rest : List PortEvent) : (popPort s rest).chans = s.chans := rfl
@[simp] theorem popPort_ssr (s : State) (rest : List PortEvent) : (popPort s rest).ssr = s.ssr := rfl
@[simp] theorem popPort_front (s : State) (rest : List PortEvent) : (popPort s rest).front = s.front := rfl
@[simp] theorem popPort_ghost (s : State) (rest : List PortEvent) : (popPort s rest).ghost = s.ghost := rfl
@[simp] theorem popPort_host (s : State) (rest : List PortEvent) : (popPort s rest).host = s.host := rfl
@[simp] theorem popPort_reads (s : State) (rest : List PortEvent) : (popPort s rest).reads = s.reads := rfl
@[simp] theorem popPort_draws (s : State) (rest : List PortEvent) : (popPort s rest).draws = s.draws := rfl
@[simp] theorem popPort_ports (s : State) (rest : List PortEvent) : (popPort s rest).ports = rest := rfl
@[simp] theorem popPort_trace (s : State) (rest : List PortEvent) : (popPort s rest).trace = s.trace := rfl
@[simp] theorem popPort_pos (s : State) (rest : List PortEvent) : (popPort s rest).pos = s.pos := rfl

@[simp] theorem popInput_cfg (s : State) (rest : List Input) : (popInput s rest).cfg = s.cfg := rfl
@[simp] theorem popInput_zcEn (s : State) (rest : List Input) : (popInput s rest).zcEn = s.zcEn := rfl
@[simp] theorem popInput_ssrEn (s : State) (rest : List Input) : (popInput s rest).ssrEn = s.ssrEn := rfl
@[simp] theorem popInput_chans (s : State) (rest : List Input) : (popInput s rest).chans = s.chans := rfl
@[simp] theorem popInput_ssr (s : State) (rest : List Input) : (popInput s rest).ssr = s.ssr := rfl
@[simp] theorem popInput_front (s : State) (rest : List Input) : (popInput s rest).front = s.front := rfl
@[simp] theorem popInput_ghost (s : State) (rest : List Input) : (popInput s rest).ghost = s.ghost := rfl
@[simp] theorem popInput_host (s : State) (rest : List Input) : (popInput s rest).host = s.host := rfl
@[simp] theorem popInput_reads (s : State) (rest : List Input) : (popInput s rest).reads = s.reads := rfl
@[simp] theorem popInput_draws (s : State) (rest : List Input) : (popInput s rest).draws = s.draws := rfl
@[simp] theorem popInput_ports (s : State) (rest : List Input) : (popInput s rest).ports = s.ports := rfl
@[simp] theorem popInput_trace (s : State) (rest : List Input) : (popInput s rest).trace = rest := rfl
@[simp] theorem popInput_pos (s : State) (rest : List Input) : (popInput s rest).pos = s.pos + 1 := rfl

/-! Putting back what is there changes nothing, and the last of two updates of one part wins. -/

@[simp] theorem withChans_self (s : State) : withChans s s.chans = s := rfl
@[simp] theorem withSsr_self (s : State) : withSsr s s.ssr = s := rfl
@[simp] theorem withFront_self (s : State) : withFront s s.front = s := rfl
@[simp] theorem withChans_withChans (s : State) (a b : List Chan) :
    withChans (withChans s a) b = withChans s b := rfl
@[simp] theorem withSsr_withSsr (s : State) (a b : Ssr) : withSsr (withSsr s a) b = withSsr s b := rfl
@[simp] theorem withHost_withHost (s : State) (a b : HostProc) :
    withHost (withHost s a) b = withHost s b := rfl

end Sys2Proof.Machine
end

