-- ==== Sys2Proof/Laws/Translator.lean ====
section
/-! SUPPORT. The translator: its bounds, and what a well-formed parameter record guarantees
(spec 41_phase_timer.md R126, R127; 00_scope.md R8). -/

namespace Sys2Proof.Machine

/-- What `ConfigOK` says, clause by clause (00_scope.md R8). -/
theorem rangesOK_iff (cfg : Config) :
    rangesOK cfg = true ↔
      (1 ≤ cfg.nCh ∧ cfg.nCh ≤ 3) ∧ (1 ≤ cfg.minPct ∧ cfg.minPct < cfg.maxPct ∧ cfg.maxPct ≤ 99) ∧
        cfg.slaveAddr ≤ 127 ∧ 1 ≤ cfg.pktSize ∧ 1 ≤ cfg.fClk ∧ 1 ≤ cfg.prescaler ∧ 1 ≤ cfg.kStep ∧
        ∀ ch < cfg.nCh, cfg.width ch = 8 ∨ cfg.width ch = 16 := by
  simp [rangesOK, List.all_eq_true, and_assoc]

theorem configOK_rangesOK {cfg : Config} (h : configOK cfg = true) : rangesOK cfg = true := by
  unfold configOK at h
  exact (Bool.and_eq_true _ _ ▸ h).1

theorem configOK_nCh_le {cfg : Config} (h : configOK cfg = true) : cfg.nCh ≤ 3 :=
  ((rangesOK_iff cfg).1 (configOK_rangesOK h)).1.2

theorem configOK_slaveAddr {cfg : Config} (h : configOK cfg = true) : cfg.slaveAddr < 128 := by
  have := ((rangesOK_iff cfg).1 (configOK_rangesOK h)).2.2.1
  omega

theorem configOK_width {cfg : Config} (h : configOK cfg = true) {ch : Nat} (hc : ch < cfg.nCh) :
    cfg.width ch = 8 ∨ cfg.width ch = 16 :=
  ((rangesOK_iff cfg).1 (configOK_rangesOK h)).2.2.2.2.2.2.2 ch hc

/-- The largest value a channel's registers hold is a 16-bit value. -/
theorem configOK_width_bound {cfg : Config} (h : configOK cfg = true) {ch : Nat} (hc : ch < cfg.nCh) :
    1 < 2 ^ cfg.width ch ∧ 2 ^ cfg.width ch ≤ 65536 := by
  rcases configOK_width h hc with hw | hw <;> rw [hw] <;> decide

/-- The clamp to 0 to 100 only cuts at 100. -/
theorem clamp_hundred (d : Nat) : clamp d 0 100 = min d 100 := by
  unfold clamp; omega

/-- The brighter, the shorter (41_phase_timer.md R126 a). -/
theorem delay_le_of_le (cfg : Config) {d e : Nat} (h : d ≤ e) : delay cfg e ≤ delay cfg d := by
  unfold delay
  rw [clamp_hundred, clamp_hundred]
  exact Nat.div_le_div_right (Nat.mul_le_mul_right _ (by omega))

/-- Under `OVF_POLICY = refuse` a well-formed record has no compare value too wide (41_phase_timer.md R127). -/
theorem configOK_delay_lt {cfg : Config} (h : configOK cfg = true) (ho : cfg.ovf = .refuse) {ch : Nat}
    (hc : ch < cfg.nCh) (d : Nat) : delay cfg d < 2 ^ cfg.width ch := by
  have h2 : (overflowChannel cfg).isNone = true := by
    unfold configOK at h
    exact (Bool.and_eq_true _ _ ▸ h).2
  unfold overflowChannel at h2
  rw [ho] at h2
  simp only [Option.isNone_iff_eq_none, List.find?_eq_none, decide_eq_true_eq, List.mem_range] at h2
  exact lt_of_le_of_lt (delay_le_of_le cfg (Nat.zero_le d)) (by have := h2 ch hc; omega)

/-- The compare value fits its register, under every policy (41_phase_timer.md R127). -/
theorem cmpVal_lt {cfg : Config} (h : configOK cfg = true) {ch : Nat} (hc : ch < cfg.nCh) (d : Nat) :
    cmpVal cfg ch d < 2 ^ cfg.width ch := by
  have hb := configOK_width_bound h hc
  unfold cmpVal
  split
  · exact configOK_delay_lt h ‹_› hc d
  · exact Nat.mod_lt _ (by omega)
  · omega

/-- The compare register holds the compare value, nothing is cut off (41_phase_timer.md R127). -/
theorem cmpReg_toNat {cfg : Config} (h : configOK cfg = true) {ch : Nat} (hc : ch < cfg.nCh) (d : Nat) :
    (cmpReg cfg ch d).toNat = cmpVal cfg ch d := by
  have h1 := cmpVal_lt h hc d
  have h2 := configOK_width_bound h hc
  unfold cmpReg
  rw [BitVec.toNat_ofNat]
  exact Nat.mod_eq_of_lt (by omega)

/-- The written request is the clamped value (43_host_consumer.md R173). -/
theorem requestValue_toNat (v : Nat) : (requestValue v).toNat = min v 100 := by
  unfold requestValue
  rw [BitVec.toNat_ofNat]
  exact Nat.mod_eq_of_lt (by omega)

/-- A record the model runs is well formed, and has the one packet layout (00_scope.md R8;
93_implementation_defined.md U13). -/
theorem recordOK_iff (cfg : Config) : recordOK cfg = true ↔ configOK cfg = true ∧ cfg.pktSize = 2 := by
  simp [recordOK]

/-- `DELAY(0)` of REF with the clock of 00_scope.md R9, whatever the widths are. -/
theorem delay_refWith (w : List Nat) : delay (Config.refWith 8000000 w) 0 = 1250 :=
  (show delay (Config.refWith 8000000 w) 0 = delay (Config.refWith 8000000 []) 0 from rfl).trans (by decide)

end Sys2Proof.Machine
end

