-- ==== Sys2Proof/Laws/Channels.lean ====
section
/-! SUPPORT. The channel operations: what each writes, in one form without steps, and one inversion per
instruction (spec 40_zero_cross.md, 41_phase_timer.md). -/

namespace Sys2Proof.Machine

/-- One place of a list is modified, every other is as it was. -/
theorem getElem?_modify {α : Type} (l : List α) (i j : Nat) (f : α → α) :
    (l.modify i f)[j]? = if i = j then l[j]?.map f else l[j]? := by
  rw [List.getElem?_modify]
  split <;> simp_all

@[simp] theorem countChan_zcp (cfg : Config) (ch : Nat) (c : Chan) : (countChan cfg ch c).zcp = c.zcp := rfl
@[simp] theorem countChan_applied (cfg : Config) (ch : Nat) (c : Chan) :
    (countChan cfg ch c).applied = c.applied := rfl
@[simp] theorem countChan_requested (cfg : Config) (ch : Nat) (c : Chan) :
    (countChan cfg ch c).requested = c.requested := rfl
@[simp] theorem countChan_drive (cfg : Config) (ch : Nat) (c : Chan) :
    (countChan cfg ch c).drive = c.drive := rfl
@[simp] theorem countChan_cmp (cfg : Config) (ch : Nat) (c : Chan) : (countChan cfg ch c).cmp = c.cmp := rfl
@[simp] theorem countChan_cmEn (cfg : Config) (ch : Nat) (c : Chan) :
    (countChan cfg ch c).cmEn = c.cmEn := rfl

/-- A service of an enabled channel: the flag ends clear, the pin is on if it was on or the old brightness fires,
the applied brightness ends as the request (41_phase_timer.md R122 to R124). -/
theorem serviceChan_enabled (cfg : Config) (ch : Nat) (c : Chan) (h : c.cmEn = true) :
    serviceChan cfg ch c =
      { c with
        zcp := false
        drive := c.drive || (c.zcp && decide (cfg.minPct < c.applied.toNat))
        applied := c.requested
        cmp := if c.applied = c.requested then c.cmp else cmpReg cfg ch c.requested.toNat } := by
  unfold serviceChan promoteChan fireChan
  cases hz : c.zcp <;> by_cases ha : c.applied = c.requested <;> by_cases hm : cfg.minPct < c.applied.toNat
    <;> cases c <;> simp_all [Bool.or_comm]

/-- A service of a disabled channel does nothing (41_phase_timer.md R133). -/
theorem serviceChan_disabled (cfg : Config) (ch : Nat) (c : Chan) (h : c.cmEn = false) :
    serviceChan cfg ch c = c := by
  simp [serviceChan, h]

@[simp] theorem serviceChan_requested (cfg : Config) (ch : Nat) (c : Chan) :
    (serviceChan cfg ch c).requested = c.requested := by
  cases h : c.cmEn
  · rw [serviceChan_disabled _ _ _ h]
  · rw [serviceChan_enabled _ _ _ h]

@[simp] theorem serviceChan_cnt (cfg : Config) (ch : Nat) (c : Chan) :
    (serviceChan cfg ch c).cnt = c.cnt := by
  cases h : c.cmEn
  · rw [serviceChan_disabled _ _ _ h]
  · rw [serviceChan_enabled _ _ _ h]

@[simp] theorem serviceChan_cmEn (cfg : Config) (ch : Nat) (c : Chan) :
    (serviceChan cfg ch c).cmEn = c.cmEn := by
  cases h : c.cmEn
  · rw [serviceChan_disabled _ _ _ h, h]
  · rw [serviceChan_enabled _ _ _ h]
    exact h

/-- A tick of a channel counts, and serves the channel or not (41_phase_timer.md R121). -/
theorem tickChan_cases (cfg : Config) (ch : Nat) (c : Chan) :
    tickChan cfg ch c = countChan cfg ch c ∨
      (c.cmEn = true ∧ tickChan cfg ch c = serviceChan cfg ch (countChan cfg ch c)) := by
  unfold tickChan
  split
  · next h =>
    rw [Bool.and_eq_true] at h
    exact .inr ⟨h.1, rfl⟩
  · exact .inl rfl

/-- Everything `ZC` can do (40_zero_cross.md R111 to R113). -/
theorem execZc_next {s t : State} (h : execZc s = .next t) :
    (s.zcEn = false ∧ t = s) ∨ (s.zcEn = true ∧ anyPending s = true ∧ t = raise s .zcOverrun) ∨
      (s.zcEn = true ∧ anyPending s = false ∧ t = withChans s (s.chans.map (crossChan s.cfg))) := by
  unfold execZc at h
  cases hz : s.zcEn <;> cases hp : anyPending s <;> simp_all

/-- Everything `TICK` can do (41_phase_timer.md R121). -/
theorem execTick_next {s t : State} (h : execTick s = .next t) :
    t = withChans s (s.chans.mapIdx (tickChan s.cfg)) := by
  cases h; rfl

/-- Everything `CM` can do (41_phase_timer.md R122). -/
theorem execCm_next {s t : State} {ch : BitVec 2} (h : execCm ch s = .next t) :
    ch.toNat < s.chans.length ∧
      t = withChans s (s.chans.modify ch.toNat (serviceChan s.cfg ch.toNat)) := by
  unfold execCm at h
  split at h
  · exact ⟨‹_›, by cases h; rfl⟩
  · cases h

end Sys2Proof.Machine
end

