-- ==== Sys2Proof/Laws/Ops.lean ====
section
/-! SUPPORT. What each shared operation can do, said once: sequencing, `raise`, reset, the write port, the host
port, and the step itself. -/

namespace Sys2Proof.Machine

@[simp] theorem andThen_next (s : State) (f : State → Result) : andThen (.next s) f = f s := rfl
@[simp] theorem andThen_fault (r : Fault) (f : State → Result) : andThen (.fault r) f = .fault r := rfl
@[simp] theorem andThen_refused (r : Refusal) (f : State → Result) :
    andThen (.refused r) f = .refused r := rfl

/-- A sequence answers a next state only through a next state of its first part. -/
theorem andThen_eq_next {o : Result} {f : State → Result} {t : State} (h : andThen o f = .next t) :
    ∃ u, o = .next u ∧ f u = .next t := by
  cases o with
  | next u => exact ⟨u, rfl, h⟩
  | fault r => cases h
  | refused r => cases h

/-- Sequencing is associative. -/
theorem andThen_assoc (o : Result) (f g : State → Result) :
    andThen (andThen o f) g = andThen o fun s => andThen (f s) g := by
  cases o <;> rfl

/-- A stop keeps its reason through what would have followed, and a next state runs it. -/
theorem andThen_cases (o : Result) (f : State → Result) :
    (∃ s, o = .next s ∧ andThen o f = f s) ∨ (∃ r, o = .fault r ∧ andThen o f = .fault r) ∨
      (∃ r, o = .refused r ∧ andThen o f = .refused r) := by
  cases o with
  | next s => exact .inl ⟨s, rfl, rfl⟩
  | fault r => exact .inr (.inl ⟨r, rfl, rfl⟩)
  | refused r => exact .inr (.inr ⟨r, rfl, rfl⟩)

@[simp] theorem logCondition_log (g : Ghost) (c : Condition) : (logCondition g c).log = g.log ++ [c] := by
  cases c <;> rfl

@[simp] theorem resetBlock_cfg (s : State) : (resetBlock s).cfg = s.cfg := rfl
@[simp] theorem resetBlock_zcEn (s : State) : (resetBlock s).zcEn = false := rfl
@[simp] theorem resetBlock_ssrEn (s : State) : (resetBlock s).ssrEn = false := rfl
@[simp] theorem resetBlock_chans (s : State) :
    (resetBlock s).chans = (List.range s.cfg.nCh).map (Chan.atReset s.cfg) := rfl
@[simp] theorem resetBlock_ssr (s : State) :
    (resetBlock s).ssr = Ssr.atReset (Config.freeByte s.draws) (Config.freeByte (s.draws + 1)) := rfl
@[simp] theorem resetBlock_front (s : State) :
    (resetBlock s).front = { s.front with startPending := false } := rfl
@[simp] theorem resetBlock_ghost (s : State) : (resetBlock s).ghost = ⟨0, 0, []⟩ := rfl
@[simp] theorem resetBlock_host (s : State) : (resetBlock s).host = s.host := rfl
@[simp] theorem resetBlock_reads (s : State) : (resetBlock s).reads = s.reads := rfl
@[simp] theorem resetBlock_ports (s : State) : (resetBlock s).ports = s.ports := rfl
@[simp] theorem resetBlock_trace (s : State) : (resetBlock s).trace = s.trace := rfl
@[simp] theorem resetBlock_pos (s : State) : (resetBlock s).pos = s.pos := rfl

/-- The write port answers a next state only for a channel that exists, and then changes that channel's
request alone (43_host_consumer.md R173). -/
theorem writeRequest_next {s t : State} {ch v : Nat} (h : writeRequest s ch v = .next t) :
    ch < s.chans.length ∧
      t = withChans s (s.chans.modify ch fun c => { c with requested := requestValue v }) := by
  unfold writeRequest at h
  split at h
  · exact ⟨‹_›, by cases h; rfl⟩
  · cases h

/-- A host read answers a next state only by a poll of the latch or by a value returned
(20_memory.md R61). -/
theorem memRead_next {s t : State} {n : RegNum} (h : memRead n s = .next t) :
    (n = 6 ∧ t = pollLatch s) ∨ (n ≠ 6 ∧ ∃ v, readValue s n = some v ∧ t = returnRead s n v) := by
  unfold memRead at h
  split at h
  · exact .inl ⟨‹_›, by cases h; rfl⟩
  · split at h
    · exact .inr ⟨‹_›, _, ‹_›, by cases h; rfl⟩
    · cases h

/-- A host write answers a next state only through the write port of a channel (20_memory.md R61). -/
theorem memWrite_next {s t : State} {n : RegNum} {v : RegData} (h : memWrite n v s = .next t) :
    ∃ ch, hostReg s.cfg.nCh n = some (.reqDim ch) ∧ writeRequest s ch v.toNat = .next t := by
  unfold memWrite at h
  split at h
  · cases h
  · exact ⟨_, ‹_›, h⟩
  · cases h

/-- The refusal of a record is exactly that it is none the model runs (00_scope.md R8;
93_implementation_defined.md U13). -/
theorem configRefusal_eq_none_iff (cfg : Config) : configRefusal cfg = none ↔ recordOK cfg = true := by
  unfold configRefusal recordOK configOK
  cases rangesOK cfg <;> cases overflowChannel cfg <;> simp

/-- A well-formed record that is refused is refused for its packet size (93_implementation_defined.md U13). -/
theorem configRefusal_packet {cfg : Config} (h : configOK cfg = true) (hp : cfg.pktSize ≠ 2) :
    configRefusal cfg = some .noPacketLayout := by
  unfold configOK at h
  unfold configRefusal
  cases hr : rangesOK cfg <;> cases ho : overflowChannel cfg <;> simp_all

/-- Everything a step that goes on can have done (00_scope.md R14, 30_encoding.md R96). -/
theorem step_next {s t : State} (h : step s = .next t) :
    recordOK s.cfg = true ∧
      ((∃ e rest, s.ports = e :: rest ∧ servePort e (popPort s rest) = .next t) ∨
        (s.ports = [] ∧ ∃ x rest, s.trace = x :: rest ∧ serveInput x s.pos (popInput s rest) = .next t)) := by
  unfold step at h
  split at h
  · cases h
  · refine ⟨(configRefusal_eq_none_iff _).1 ‹_›, ?_⟩
    split at h
    · exact .inl ⟨_, _, ‹_›, h⟩
    · split at h
      · cases h
      · exact .inr ⟨‹_›, _, _, ‹_›, h⟩

/-- A served port change is the front end's move, and then the operation it emits if it emits one
(30_encoding.md R96). -/
theorem servePort_next {s t : State} {e : PortEvent} (h : servePort e s = .next t) :
    (∃ i, portOp s.cfg.zcEdge s.front e = some i ∧
        exec i (withFront s (portFront s.ssrEn s.front e)) = .next t) ∨
      (portOp s.cfg.zcEdge s.front e = none ∧ t = withFront s (portFront s.ssrEn s.front e)) := by
  unfold servePort at h
  split at h
  · exact .inl ⟨_, ‹_›, h⟩
  · exact .inr ⟨‹_›, by cases h; rfl⟩

end Sys2Proof.Machine
end

