-- ==== Sys2Proof/Laws/Receiver.lean ====
section
/-! SUPPORT. The receiver's operations: one inversion per instruction, and what a byte on the wire does to the
registers that hold it (spec 42_serial_receiver.md). -/

namespace Sys2Proof.Machine

/-- A byte boundary changes the receiver, and the ghost state when a byte is dropped
(42_serial_receiver.md R146 to R150). -/
theorem serveBoundary_cases (s : State) :
    (s.ssr.state = .checkAddress ∧ addressed s.cfg s.ssr.sr = true ∧
        serveBoundary s = withSsr s (addrMatchSsr s.ssr)) ∨
      (s.ssr.state = .checkAddress ∧ addressed s.cfg s.ssr.sr = false ∧
        serveBoundary s = withSsr s (addrMismatchSsr s.ssr)) ∨
      (s.ssr.state = .recvDataWait ∧ s.ssr.rxStatus = .terminated ∧
        serveBoundary s = withSsr s (waitAbortSsr s.ssr)) ∨
      (s.ssr.state = .recvDataWait ∧ s.ssr.rxStatus ≠ .terminated ∧
        serveBoundary s = withSsr s (waitReleaseSsr s.ssr)) ∨
      (s.ssr.state = .recvDataAckSend ∧ s.ssr.rxStatus = .pending ∧
        serveBoundary s = withSsr s (ackSsr (latchSsr s.ssr))) ∨
      (s.ssr.state = .recvDataAckSend ∧ s.ssr.rxStatus ≠ .pending ∧
        serveBoundary s = raise (withSsr s (ackSsr s.ssr)) (.rxOverrun s.ssr.sr)) := by
  unfold serveBoundary bbAddr bbWait bbAck
  cases hs : s.ssr.state <;> cases ha : addressed s.cfg s.ssr.sr <;> cases hr : s.ssr.rxStatus <;> simp

/-- Everything `START` can do (42_serial_receiver.md R142, R158). -/
theorem execStart_next {s t : State} {b : Bool} (h : execStart b s = .next t) :
    (s.ssrEn = false ∧ t = s) ∨ (s.ssrEn = true ∧ t = withSsr s (startSsr b s.ssr)) := by
  unfold execStart serveStart at h
  cases he : s.ssrEn <;> simp_all

/-- Everything `STOP` can do (42_serial_receiver.md R143). -/
theorem execStop_next {s t : State} (h : execStop s = .next t) :
    ((s.ssrEn = false ∨ s.cfg.pStopIrq = false) ∧ t = s) ∨
      (s.ssrEn = true ∧ s.cfg.pStopIrq = true ∧ t = withSsr s (startSsr true s.ssr)) := by
  unfold execStop serveStart at h
  cases hp : s.cfg.pStopIrq <;> cases he : s.ssrEn <;> simp_all

/-- Everything `RISE` can do (42_serial_receiver.md R144). -/
theorem execRise_next {s t : State} {b : Bool} (h : execRise b s = .next t) :
    (clocked s = false ∧ t = s) ∨
      (clocked s = true ∧ s.ssr.bitCnt.toNat < 8 ∧ t = withSsr s (riseSsr b s.ssr)) := by
  unfold execRise at h
  cases hc : clocked s <;> by_cases h8 : 8 ≤ s.ssr.bitCnt.toNat <;> simp_all

/-- Everything `BB` can do (42_serial_receiver.md R146). -/
theorem execBb_next {s t : State} (h : execBb s = .next t) :
    (clocked s = false ∧ t = s) ∨ (clocked s = true ∧ t = serveBoundary s) := by
  unfold execBb at h
  cases hc : clocked s <;> simp_all

/-- Everything `FALL` can do (42_serial_receiver.md R145). -/
theorem execFall_next {s t : State} (h : execFall s = .next t) :
    t = s ∨ (clocked s = true ∧ t = serveBoundary s) := by
  unfold execFall at h
  cases hc : clocked s <;> by_cases hb : s.ssr.bitCnt = s.ssr.bitTarget <;> simp_all

/-- A property that `RISE` and `FALL` keep is kept by any number of clock periods (30_encoding.md R94). -/
theorem clockBits_induction {P : State → Prop} (v : Byte)
    (hr : ∀ b s t, P s → execRise b s = .next t → P t) (hf : ∀ s t, P s → execFall s = .next t → P t) :
    ∀ k s t, P s → clockBits v k s = .next t → P t := by
  intro k
  induction k with
  | zero => intro s t hp h; cases h; exact hp
  | succ k ih =>
    intro s t hp h
    obtain ⟨u, hu, ht⟩ := andThen_eq_next h
    obtain ⟨x, hx, hxu⟩ := andThen_eq_next hu
    exact ih u t (hf x u (hr _ s x hp hx) hxu) ht

/-- Gated off, no clock edge reaches the receiver (42_serial_receiver.md R144, R158). -/
theorem clocked_eq_false {s : State} (h : s.ssrEn = false ∨ s.ssr.mode = .startOnly) : clocked s = false := by
  unfold clocked
  rcases h with h | h <;> simp [h]

theorem clocked_eq_true {s : State} (h : s.ssrEn = true) (g : s.ssr.mode = .counting) : clocked s = true := by
  simp [clocked, h, g]

/-- The shift register after a rising edge, as a number (42_serial_receiver.md R144). -/
theorem riseSsr_sr_toNat (b : Bool) (r : Ssr) :
    (riseSsr b r).sr.toNat =
      (2 * r.sr.toNat + if b = true ∧ r.sdaDrive = false then 1 else 0) % 256 := by
  have hr := r.sr.isLt
  have hd : (r.sr <<< 1) &&& (BitVec.ofBool (sampledBit b r)).setWidth 8 = 0 := by
    generalize r.sr = x
    cases sampledBit b r <;> revert x <;> decide
  simp only [riseSsr]
  rw [← BitVec.add_eq_or_of_and_eq_zero _ _ hd]
  cases b <;> cases hs : r.sdaDrive <;>
    simp [sampledBit, hs, BitVec.toNat_shiftLeft, Nat.shiftLeft_eq] <;> omega

/-- A byte is addressed to this block when its upper 7 bits are `SLAVE_ADDR` (30_encoding.md R81). -/
theorem addressed_iff (cfg : Config) (b : Byte) : addressed cfg b = true ↔ b.toNat / 2 = cfg.slaveAddr := by
  have hb := b.isLt
  have e : (addrField b).toNat = b.toNat / 2 := by
    simp only [addrField, BitVec.extractLsb'_toNat, Nat.shiftRight_eq_div_pow]
    omega
  simp [addressed, e]

theorem addrByte_toNat (a : BitVec 7) (rw : Bool) : (addrByte a rw).toNat = 2 * a.toNat + rw.toNat := by
  cases rw <;> revert a <;> decide

/-- One clock period that does not reach the target shifts, one that reaches it ends the byte
(42_serial_receiver.md R144, R145). -/
theorem clockBit_eq {s : State} (b : Bool) (h : clocked s = true) (h8 : s.ssr.bitCnt.toNat < 8) :
    clockBit b s =
      if s.ssr.bitCnt + 1 = s.ssr.bitTarget then .next (serveBoundary (withSsr s (riseSsr b s.ssr)))
      else .next (withSsr s (riseSsr b s.ssr)) := by
  have hc : clocked (withSsr s (riseSsr b s.ssr)) = true := h
  simp only [clockBit, execRise, h, Nat.not_le.mpr h8, if_true, if_false, andThen_next, execFall, hc,
    Bool.true_and]
  simp [riseSsr]

/-- The clocks of a gated receiver pass without effect (42_serial_receiver.md R158). -/
theorem clockBit_gated {s : State} (b : Bool) (h : clocked s = false) : clockBit b s = .next s := by
  simp [clockBit, execRise, execFall, h]

theorem clockBits_gated {s : State} (v : Byte) (h : clocked s = false) :
    ∀ k, clockBits v k s = .next s
  | 0 => rfl
  | k + 1 => by simp [clockBits, clockBit_gated _ h, clockBits_gated v h k]

/-- The last `k + 1` bits of a byte, the count standing so that they end it: they are in the shift register, most
significant first, and the byte boundary is served (42_serial_receiver.md R144, R145; 20_memory.md R63). -/
theorem clockBits_boundary (v : Byte) : ∀ (k : Nat) (s : State), clocked s = true → s.ssr.sdaDrive = false →
    s.ssr.bitTarget = 8 → s.ssr.bitCnt.toNat + k + 1 = 8 →
    ∃ x : Byte, clockBits v (k + 1) s = .next (serveBoundary (withSsr s { s.ssr with sr := x, bitCnt := 8 })) ∧
      x.toNat = (s.ssr.sr.toNat * 2 ^ (k + 1) + v.toNat % 2 ^ (k + 1)) % 256 := by
  intro k
  induction k with
  | zero =>
    intro s hc hs ht hb
    refine ⟨(riseSsr (v.getLsbD 0) s.ssr).sr, ?_, ?_⟩
    · have h7 : s.ssr.bitCnt = 7 := BitVec.eq_of_toNat_eq (by simp; omega)
      rw [clockBits, clockBit_eq _ hc (by omega), h7, ht, if_pos (by decide)]
      simp [riseSsr, h7, clockBits]
    · have hv := v.isLt
      rw [riseSsr_sr_toNat, hs, BitVec.getLsbD, Nat.testBit_zero]
      simp
      split <;> omega
  | succ k ih =>
    intro s hc hs ht hb
    have hne : s.ssr.bitCnt + 1 ≠ s.ssr.bitTarget := by
      rw [ht]
      intro h
      have := congrArg BitVec.toNat h
      simp at this
      omega
    obtain ⟨x, e1, e2⟩ :=
      ih (withSsr s (riseSsr (v.getLsbD (k + 1)) s.ssr)) hc hs ht (by simp [riseSsr]; omega)
    refine ⟨x, ?_, ?_⟩
    · rw [clockBits, clockBit_eq _ hc (by omega), if_neg hne, andThen_next, e1]
      simp [riseSsr, withSsr]
    · have hbit : (if v.getLsbD (k + 1) = true ∧ True then 1 else 0) = v.toNat / 2 ^ (k + 1) % 2 := by
        rw [BitVec.getLsbD, Nat.testBit_eq_decide_div_mod_eq]
        rcases Nat.mod_two_eq_zero_or_one (v.toNat / 2 ^ (k + 1)) with h | h <;> simp [h]
      rw [e2]
      simp only [withSsr_ssr, riseSsr_sr_toNat, hs]
      rw [Nat.mod_pow_succ (b := 2) (k := k + 1) (x := v.toNat), hbit]
      generalize v.toNat / 2 ^ (k + 1) % 2 = b
      generalize v.toNat % 2 ^ (k + 1) = m
      rw [Nat.add_mod, Nat.mod_mul_mod, ← Nat.add_mod]
      congr 1
      rw [Nat.pow_succ 2 (k + 1)]
      ring

/-- A whole byte on the wire is in the shift register when its boundary is served (30_encoding.md R94;
20_memory.md R63). -/
theorem wireByte_boundary {s : State} (v : Byte) (hc : clocked s = true) (hs : s.ssr.sdaDrive = false)
    (ht : s.ssr.bitTarget = 8) (hb : s.ssr.bitCnt = 0) :
    wireByte v s = .next (serveBoundary (withSsr s { s.ssr with sr := v, bitCnt := 8 })) := by
  obtain ⟨x, e1, e2⟩ := clockBits_boundary v 7 s hc hs ht (by simp [hb])
  have hx : x = v := BitVec.eq_of_toNat_eq (by have := v.isLt; omega)
  rw [wireByte, e1, hx]

end Sys2Proof.Machine
end

