-- ==== Sys2Proof/Laws/Exec.lean ====
section
/-! SUPPORT. What every instruction can do to the channels and to the receiver, said once over all
instructions, and traces of operations taken apart (spec 10_state.md R42; 00_scope.md R14). -/

namespace Sys2Proof.Machine

/-- A trace of two parts runs the first and then the second. -/
theorem runOps_append (l m : List Instr) (s : State) :
    runOps (l ++ m) s = andThen (runOps l s) (runOps m) := by
  induction l generalizing s with
  | nil => rfl
  | cons i l ih =>
    simp only [List.cons_append, runOps, andThen_assoc]
    exact congrArg _ (funext fun u => ih u)

/-- A trace that goes on did so at its first operation and in the rest. -/
theorem runOps_cons_next {i : Instr} {l : List Instr} {s t : State} (h : runOps (i :: l) s = .next t) :
    ∃ u, exec i s = .next u ∧ runOps l u = .next t :=
  andThen_eq_next h

/-- What a property that `exec` keeps at every operation of a trace is at its end. -/
theorem runOps_induction {P : State → Prop} :
    ∀ (l : List Instr) (s t : State), (∀ i ∈ l, ∀ s t, P s → exec i s = .next t → P t) → P s →
      runOps l s = .next t → P t := by
  intro l
  induction l with
  | nil => intro s t _ hp h; cases h; exact hp
  | cons i l ih =>
    intro s t hi hp h
    obtain ⟨u, hu, ht⟩ := runOps_cons_next h
    exact ih u t (fun j hj => hi j (List.mem_cons_of_mem _ hj)) (hi i List.mem_cons_self s u hp hu) ht

/-- Everything but the receiver and the ghost state is the same. -/
structure SameButSsr (s t : State) : Prop where
  cfg : t.cfg = s.cfg
  zcEn : t.zcEn = s.zcEn
  ssrEn : t.ssrEn = s.ssrEn
  chans : t.chans = s.chans
  front : t.front = s.front
  host : t.host = s.host
  zcDropped : t.ghost.zcDropped = s.ghost.zcDropped
  ports : t.ports = s.ports
  trace : t.trace = s.trace
  pos : t.pos = s.pos

theorem SameButSsr.refl (s : State) : SameButSsr s s := ⟨rfl, rfl, rfl, rfl, rfl, rfl, rfl, rfl, rfl, rfl⟩

theorem SameButSsr.trans {s t u : State} (h : SameButSsr s t) (g : SameButSsr t u) : SameButSsr s u :=
  ⟨g.cfg.trans h.cfg, g.zcEn.trans h.zcEn, g.ssrEn.trans h.ssrEn, g.chans.trans h.chans,
    g.front.trans h.front, g.host.trans h.host, g.zcDropped.trans h.zcDropped, g.ports.trans h.ports,
    g.trace.trans h.trace, g.pos.trans h.pos⟩

theorem sameButSsr_withSsr (s : State) (r : Ssr) : SameButSsr s (withSsr s r) :=
  ⟨rfl, rfl, rfl, rfl, rfl, rfl, rfl, rfl, rfl, rfl⟩

theorem sameButSsr_pollLatch (s : State) : SameButSsr s (pollLatch s) :=
  ⟨rfl, rfl, rfl, rfl, rfl, rfl, rfl, rfl, rfl, rfl⟩

theorem sameButSsr_returnRead (s : State) (n : RegNum) (v : RegData) : SameButSsr s (returnRead s n v) :=
  ⟨rfl, rfl, rfl, rfl, rfl, rfl, rfl, rfl, rfl, rfl⟩

/-- A byte boundary touches the receiver and the ghost state only (42_serial_receiver.md R146). -/
theorem sameButSsr_serveBoundary (s : State) : SameButSsr s (serveBoundary s) := by
  rcases serveBoundary_cases s with ⟨_, _, h⟩ | ⟨_, _, h⟩ | ⟨_, _, h⟩ | ⟨_, _, h⟩ | ⟨_, _, h⟩ | ⟨_, _, h⟩ <;>
    rw [h] <;> exact ⟨rfl, rfl, rfl, rfl, rfl, rfl, rfl, rfl, rfl, rfl⟩

theorem sameButSsr_execRise {b : Bool} {s t : State} (h : execRise b s = .next t) : SameButSsr s t := by
  rcases execRise_next h with ⟨_, rfl⟩ | ⟨_, _, rfl⟩
  · exact .refl _
  · exact sameButSsr_withSsr _ _

theorem sameButSsr_execFall {s t : State} (h : execFall s = .next t) : SameButSsr s t := by
  rcases execFall_next h with rfl | ⟨_, rfl⟩
  · exact .refl _
  · exact sameButSsr_serveBoundary _

/-- The clocks of the wire touch the receiver and the ghost state only. -/
theorem sameButSsr_clockBits {v : Byte} {k : Nat} {s t : State} (h : clockBits v k s = .next t) :
    SameButSsr s t :=
  clockBits_induction (P := SameButSsr s) v (fun _ _ _ hp h => hp.trans (sameButSsr_execRise h))
    (fun _ _ hp h => hp.trans (sameButSsr_execFall h)) k s t (.refl s) h

theorem sameButSsr_clockBit {b : Bool} {s t : State} (h : clockBit b s = .next t) : SameButSsr s t := by
  obtain ⟨u, hu, ht⟩ := andThen_eq_next h
  exact (sameButSsr_execRise hu).trans (sameButSsr_execFall ht)

/-- The instructions that touch nothing but the receiver, the values returned to the host and the ghost
state. -/
def isReceiverOp : Instr → Bool
  | .reset | .init | .zc | .tick | .cm _ | .reqwr _ _ => false
  | .start _ | .stop | .rise _ | .fall | .bb | .rxtake | .rd _ => true
  | .reservedD _ | .reservedE _ | .reservedF _ => true
  | .wireAddrMatch _ | .wireAddrMismatch _ _ | .wireData _ | .wireAck => true

/-- An instruction of the receiver, or a host read, leaves all but the receiver as it was
(10_state.md R42). -/
theorem exec_sameButSsr {i : Instr} {s t : State} (hi : isReceiverOp i = true) (h : exec i s = .next t) :
    SameButSsr s t := by
  cases i with
  | reset | init | zc | tick | cm | reqwr => cases hi
  | start b =>
    rcases execStart_next h with ⟨_, rfl⟩ | ⟨_, rfl⟩
    · exact .refl _
    · exact sameButSsr_withSsr _ _
  | stop =>
    rcases execStop_next h with ⟨_, rfl⟩ | ⟨_, _, rfl⟩
    · exact .refl _
    · exact sameButSsr_withSsr _ _
  | rise b => exact sameButSsr_execRise h
  | fall => exact sameButSsr_execFall h
  | bb =>
    rcases execBb_next h with ⟨_, rfl⟩ | ⟨_, rfl⟩
    · exact .refl _
    · exact sameButSsr_serveBoundary _
  | rxtake => cases h; exact sameButSsr_pollLatch _
  | rd n =>
    rcases memRead_next h with ⟨_, rfl⟩ | ⟨_, v, _, rfl⟩
    · exact sameButSsr_pollLatch _
    · exact sameButSsr_returnRead _ _ _
  | reservedD | reservedE | reservedF => cases h
  | wireAddrMatch | wireAddrMismatch | wireData => exact sameButSsr_clockBits h
  | wireAck => exact sameButSsr_clockBit h

/-- What an instruction can do to the channels: seven cases for all instructions (10_state.md R42). -/
inductive ChannelEffect (i : Instr) (s t : State) : Prop where
  | reset (hi : i = .reset) (ht : t = resetBlock s)
  | init (hi : i = .init) (hs : t.ssr = s.ssr)
      (hc : t.chans = s.chans.map fun c => { c with cmEn := true })
  | cross (hi : i = .zc) (hz : s.zcEn = true) (hp : anyPending s = false)
      (ht : t = withChans s (s.chans.map (crossChan s.cfg)))
  | tick (hi : i = .tick) (ht : t = withChans s (s.chans.mapIdx (tickChan s.cfg)))
  | service (ch : BitVec 2) (hi : i = .cm ch) (hl : ch.toNat < s.chans.length)
      (ht : t = withChans s (s.chans.modify ch.toNat (serviceChan s.cfg ch.toNat)))
  | request (ch : BitVec 2) (v : Byte) (hi : i = .reqwr ch v) (hl : ch.toNat < s.chans.length)
      (ht : t = withChans s (s.chans.modify ch.toNat fun c => { c with requested := requestValue v.toNat }))
  | none (hi : i ≠ .reset) (hc : t.chans = s.chans)

/-- Every instruction that goes on does one of the seven things to the channels. -/
theorem exec_channelEffect {i : Instr} {s t : State} (h : exec i s = .next t) : ChannelEffect i s t := by
  by_cases hi : isReceiverOp i = true
  · exact .none (by rintro rfl; cases hi) (exec_sameButSsr hi h).chans
  · cases i with
    | reset => cases h; exact .reset rfl rfl
    | init => cases h; exact .init rfl rfl rfl
    | zc =>
      rcases execZc_next h with ⟨_, rfl⟩ | ⟨_, _, rfl⟩ | ⟨hz, hp, rfl⟩
      · exact .none (by rintro ⟨⟩) rfl
      · exact .none (by rintro ⟨⟩) rfl
      · exact .cross rfl hz hp rfl
    | tick => exact .tick rfl (execTick_next h)
    | cm ch => exact .service ch rfl (execCm_next h).1 (execCm_next h).2
    | reqwr ch v => exact .request ch v rfl (writeRequest_next h).1 (writeRequest_next h).2
    | start | stop | rise | fall | bb | rxtake | rd | reservedD | reservedE | reservedF | wireAddrMatch
    | wireAddrMismatch | wireData | wireAck => exact absurd rfl hi

/-- No instruction changes the parameter record (10_state.md R35). -/
theorem exec_cfg {i : Instr} {s t : State} (h : exec i s = .next t) : t.cfg = s.cfg := by
  by_cases hi : isReceiverOp i = true
  · exact (exec_sameButSsr hi h).cfg
  · cases i with
    | reset | init | tick => cases h; rfl
    | zc => rcases execZc_next h with ⟨_, rfl⟩ | ⟨_, _, rfl⟩ | ⟨_, _, rfl⟩ <;> rfl
    | cm ch => rw [(execCm_next h).2]; rfl
    | reqwr ch v => rw [(writeRequest_next h).2]; rfl
    | start | stop | rise | fall | bb | rxtake | rd | reservedD | reservedE | reservedF | wireAddrMatch
    | wireAddrMismatch | wireData | wireAck => exact absurd rfl hi

/-- Every instruction changes the pins' own history only at `INIT` and `RESET` (10_state.md R37). -/
theorem exec_front {i : Instr} {s t : State} (h : exec i s = .next t) (h0 : i ≠ .reset) (h1 : i ≠ .init) :
    t.front = s.front ∧ t.zcEn = s.zcEn ∧ t.ssrEn = s.ssrEn := by
  by_cases hi : isReceiverOp i = true
  · have := exec_sameButSsr hi h
    exact ⟨this.front, this.zcEn, this.ssrEn⟩
  · cases i with
    | reset => exact absurd rfl h0
    | init => exact absurd rfl h1
    | tick => cases h; exact ⟨rfl, rfl, rfl⟩
    | zc => rcases execZc_next h with ⟨_, rfl⟩ | ⟨_, _, rfl⟩ | ⟨_, _, rfl⟩ <;> exact ⟨rfl, rfl, rfl⟩
    | cm ch => rw [(execCm_next h).2]; exact ⟨rfl, rfl, rfl⟩
    | reqwr ch v => rw [(writeRequest_next h).2]; exact ⟨rfl, rfl, rfl⟩
    | start | stop | rise | fall | bb | rxtake | rd | reservedD | reservedE | reservedF | wireAddrMatch
    | wireAddrMismatch | wireData | wireAck => exact absurd rfl hi

/-- The receiver after any instruction but `RESET` and those of the receiver is as it was. -/
theorem exec_ssr {i : Instr} {s t : State} (h : exec i s = .next t) (h0 : i ≠ .reset)
    (hi : isReceiverOp i = false) : t.ssr = s.ssr := by
  cases i with
  | reset => exact absurd rfl h0
  | init | tick => cases h; rfl
  | zc => rcases execZc_next h with ⟨_, rfl⟩ | ⟨_, _, rfl⟩ | ⟨_, _, rfl⟩ <;> rfl
  | cm ch => rw [(execCm_next h).2]; rfl
  | reqwr ch v => rw [(writeRequest_next h).2]; rfl
  | start | stop | rise | fall | bb | rxtake | rd | reservedD | reservedE | reservedF | wireAddrMatch
  | wireAddrMismatch | wireData | wireAck => cases hi

/-- One bit of the expansion `BYTE` is one clock period (30_encoding.md R94). -/
theorem runOps_bitOps (b : Bool) (s : State) : runOps (bitOps b) s = clockBit b s := by
  have h : ∀ o : Result, andThen o (fun s => .next s) = o := fun o => by cases o <;> rfl
  simp only [bitOps, runOps, exec, clockBit, h]

/-- `CM` on each channel of a list without repeats serves exactly those channels (41_phase_timer.md R121,
R122). -/
theorem runOps_services : ∀ (l : List Nat) (s : State), l.Nodup → (∀ k ∈ l, k < s.chans.length ∧ k < 4) →
    runOps (l.map fun ch => .cm (BitVec.ofNat 2 ch)) s =
      .next (withChans s (s.chans.mapIdx fun k c => if k ∈ l then serviceChan s.cfg k c else c)) := by
  intro l
  induction l with
  | nil =>
    intro s _ _
    have h : s.chans.mapIdx (fun _ c => c) = s.chans := by
      apply List.ext_getElem?
      simp
    simp [runOps, h]
  | cons a l ih =>
    intro s hn hb
    rw [List.nodup_cons] at hn
    have ha := hb a (by simp)
    have hm : (BitVec.ofNat 2 a).toNat = a := by simp; omega
    simp only [List.map_cons, runOps, exec, execCm, hm, ha.1, if_true, andThen_next]
    rw [ih (withChans s (s.chans.modify a (serviceChan s.cfg a))) hn.2
      (by intro k hk; have := hb k (by simp [hk]); simpa using this)]
    simp only [withChans_cfg, withChans_withChans, withChans_chans]
    congr 2
    apply List.ext_getElem?
    intro j
    simp only [List.getElem?_mapIdx, getElem?_modify]
    by_cases hj : a = j
    · subst hj; simp [hn.1]; rfl
    · simp [hj, Ne.symm hj]

end Sys2Proof.Machine
end

