-- ==== Sys2Proof/Laws/Inputs.lean ====
section
/-! SUPPORT. What one input of the environment can do to the block, said once over all inputs, and the orders a
list can be put in (spec 00_scope.md R13, R14; 43_host_consumer.md R177; 60_exceptions.md R198). -/

namespace Sys2Proof.Machine

/-- The parameter record, the enables, the channels, the receiver and the front end are the same. -/
structure SameBlock (s t : State) : Prop where
  cfg : t.cfg = s.cfg
  zcEn : t.zcEn = s.zcEn
  ssrEn : t.ssrEn = s.ssrEn
  chans : t.chans = s.chans
  ssr : t.ssr = s.ssr
  front : t.front = s.front

/-- What an input can do: run an operation, write a request, poll the latch, or leave the block alone. The host's
process moves beside it (`h`). -/
inductive InputEffect (s t : State) : Prop where
  | op (i : Instr) (h : exec i s = .next t)
  | request (ch v : Nat) (h : HostProc) (hl : ch < s.chans.length)
      (ht : t = withHost (withChans s (s.chans.modify ch fun c => { c with requested := requestValue v })) h)
  | poll (h : HostProc) (ht : t = withHost (pollLatch s) h)
  | none (h : SameBlock s t)

/-- A step of the host's process (43_host_consumer.md R175, R177). -/
theorem hostStep_next {s t : State} (h : hostStep s = .next t) : InputEffect s t := by
  unfold hostStep at h
  split at h
  · cases h; exact .poll _ rfl
  · split at h
    · obtain ⟨u, hu, ht⟩ := andThen_eq_next h
      cases ht
      unfold finishPacket at hu
      split at hu
      · unfold applyPacket at hu
        split at hu
        · cases hu; exact .none ⟨rfl, rfl, rfl, rfl, rfl, rfl⟩
        · obtain ⟨hl, rfl⟩ := writeRequest_next hu
          exact .request _ _ _ hl rfl
      · cases hu; exact .none ⟨rfl, rfl, rfl, rfl, rfl, rfl⟩
    · cases h; exact .none ⟨rfl, rfl, rfl, rfl, rfl, rfl⟩

/-- Every input that goes on does one of the four things to the block. -/
theorem serveInput_next {x : Input} {n : Nat} {s t : State} (h : serveInput x n s = .next t) :
    InputEffect s t := by
  cases x with
  | code c =>
    simp only [serveInput, serveCode] at h
    split at h
    · exact .op _ h
    · cases h
  | sample p =>
    simp only [serveInput, serveSample] at h
    split at h
    · cases h
    · cases h; exact .none ⟨rfl, rfl, rfl, rfl, rfl, rfl⟩
  | hostRead n => exact .op (.rd n) h
  | hostWrite n v =>
    obtain ⟨ch, _, h⟩ := memWrite_next h
    obtain ⟨hl, rfl⟩ := writeRequest_next h
    exact .request _ _ s.host hl rfl
  | recvPacket n => cases h; exact .none ⟨rfl, rfl, rfl, rfl, rfl, rfl⟩
  | consumer => cases h; exact .none ⟨rfl, rfl, rfl, rfl, rfl, rfl⟩
  | hostStep => exact hostStep_next h

/-- An arrangement of a list holds the same members, each as often (60_exceptions.md R198). -/
theorem arrange_perm {α : Type} (l : List α) (k : Nat) : (arrange l k).Perm l := by
  induction l generalizing k with
  | nil => exact .refl _
  | cons a l ih =>
    cases l with
    | nil => exact .refl _
    | cons b l =>
      have h := ih (k / (l.length + 2))
      simp only [arrange]
      refine (List.perm_insertIdx _ _ ?_).trans (h.cons a)
      have := Nat.mod_lt k (show 0 < l.length + 2 by omega)
      rw [h.length_eq, List.length_cons]
      omega

end Sys2Proof.Machine
end

