-- ==== Sys2Proof/Laws/Operands.lean ====
section
/-! SUPPORT. The fields of an event word and of an address byte: each field of an assembled word is what was
put there, and a word is its fields. -/

namespace Sys2Proof.Machine

theorem evtOp_toNat (w : EventWord) : (evtOp w).toNat = w.toNat / 4096 := by
  have := w.isLt
  simp only [evtOp, BitVec.extractLsb'_toNat, Nat.shiftRight_eq_div_pow]
  omega

theorem evtZ_toNat (w : EventWord) : (evtZ w).toNat = w.toNat / 1024 % 4 := by
  simp only [evtZ, BitVec.extractLsb'_toNat, Nat.shiftRight_eq_div_pow]

theorem evtCh_toNat (w : EventWord) : (evtCh w).toNat = w.toNat / 256 % 4 := by
  simp only [evtCh, BitVec.extractLsb'_toNat, Nat.shiftRight_eq_div_pow]

theorem evtD_toNat (w : EventWord) : (evtD w).toNat = w.toNat % 256 := by
  simp only [evtD, BitVec.extractLsb'_toNat, Nat.shiftRight_eq_div_pow, Nat.pow_zero, Nat.div_one]

theorem evtWord_toNat (op : BitVec 4) (ch : BitVec 2) (d : Byte) :
    (evtWord op ch d).toNat = 4096 * op.toNat + 256 * ch.toNat + d.toNat := by
  have h1 := op.isLt
  have h2 := ch.isLt
  have h3 := d.isLt
  rw [evtWord, BitVec.toNat_ofNat]
  omega

@[simp] theorem evtOp_evtWord (op : BitVec 4) (ch : BitVec 2) (d : Byte) : evtOp (evtWord op ch d) = op := by
  have h2 := ch.isLt
  have h3 := d.isLt
  apply BitVec.eq_of_toNat_eq
  rw [evtOp_toNat, evtWord_toNat]
  omega

@[simp] theorem evtZ_evtWord (op : BitVec 4) (ch : BitVec 2) (d : Byte) : evtZ (evtWord op ch d) = 0 := by
  have h2 := ch.isLt
  have h3 := d.isLt
  apply BitVec.eq_of_toNat_eq
  rw [evtZ_toNat, evtWord_toNat]
  change _ = 0
  omega

@[simp] theorem evtCh_evtWord (op : BitVec 4) (ch : BitVec 2) (d : Byte) : evtCh (evtWord op ch d) = ch := by
  have h2 := ch.isLt
  have h3 := d.isLt
  apply BitVec.eq_of_toNat_eq
  rw [evtCh_toNat, evtWord_toNat]
  omega

@[simp] theorem evtD_evtWord (op : BitVec 4) (ch : BitVec 2) (d : Byte) : evtD (evtWord op ch d) = d := by
  have h3 := d.isLt
  apply BitVec.eq_of_toNat_eq
  rw [evtD_toNat, evtWord_toNat]
  omega

/-- A word whose `z` is 0 is assembled from its other fields (30_encoding.md R87). -/
theorem evtWord_fields (w : EventWord) (hz : evtZ w = 0) : evtWord (evtOp w) (evtCh w) (evtD w) = w := by
  have hz' : w.toNat / 1024 % 4 = 0 := by rw [← evtZ_toNat, hz]; rfl
  apply BitVec.eq_of_toNat_eq
  rw [evtWord_toNat, evtOp_toNat, evtCh_toNat, evtD_toNat]
  omega

@[simp] theorem bitByte_high (b : Bool) : (bitByte b).extractLsb' 1 7 = 0 := by cases b <;> decide
@[simp] theorem bitByte_low (b : Bool) : (bitByte b).getLsbD 0 = b := by cases b <;> decide

@[simp] theorem bitByte_getElem_zero (b : Bool) : (bitByte b)[0] = b := by cases b <;> decide

/-- A byte whose bits [7:1] are 0 is its bit [0]. -/
theorem bitByte_fields (d : Byte) (h : d.extractLsb' 1 7 = 0) : bitByte (d.getLsbD 0) = d := by
  revert h; revert d; decide

@[simp] theorem regByte_high (n : RegNum) : (regByte n).extractLsb' 6 2 = 0 := by revert n; decide
@[simp] theorem regByte_low (n : RegNum) : (regByte n).extractLsb' 0 6 = n := by revert n; decide

/-- A byte whose bits [7:6] are 0 is its bits [5:0]. -/
theorem regByte_fields (d : Byte) (h : d.extractLsb' 6 2 = 0) : regByte (d.extractLsb' 0 6) = d := by
  revert h; revert d; decide

@[simp] theorem addrField_addrByte (a : BitVec 7) (rw : Bool) : addrField (addrByte a rw) = a := by
  cases rw <;> revert a <;> decide

@[simp] theorem rwField_addrByte (a : BitVec 7) (rw : Bool) : rwField (addrByte a rw) = rw := by
  cases rw <;> revert a <;> decide

/-- An address byte is its two fields (30_encoding.md R81). -/
theorem addrByte_fields (b : Byte) : addrByte (addrField b) (rwField b) = b := by
  revert b; decide

/-- The numbers that hold a register under `nCh` channels (10_state.md R41). -/
theorem hostReg_isSome_iff (nCh : Nat) (n : RegNum) :
    (hostReg nCh n).isSome = true ↔
      n.toNat ≤ 6 ∨ (16 ≤ n.toNat ∧ n.toNat < 32 ∧ n.toNat % 4 < nCh) := by
  have hn := n.isLt
  unfold hostReg
  split <;> try simp_all
  next k h0 h1 h2 h3 h4 h5 h6 =>
    have : 7 ≤ n.toNat := by omega
    unfold channelReg
    by_cases hc : n.toNat % 4 < nCh
    · rw [if_pos hc]
      split
      iterate 4 · simp; omega
      · next g4 g5 g6 g7 =>
        simp only [imp_false] at g4 g5 g6 g7
        simp only [Option.isSome_none, Bool.false_eq_true, false_iff]
        omega
    · rw [if_neg hc]; simp; omega

end Sys2Proof.Machine
end

