-- ==== Sys2Proof/Laws/PerInstr.lean ====
section
/-! SUPPORT. A statement per instruction: the operation code of its event word (spec 30_encoding.md R87, R88), and
that a symbol of the wire has no event word (R81 to R83). -/

namespace Sys2Proof.Laws.OpField

open Sys2Proof Sys2Proof.Machine

/-- The operation code of the table of 30_encoding.md R88, R90; none for a symbol of the wire (R81 to R83). -/
def opCode : Instr → Option Nat
  | .reset => some 0x0
  | .init => some 0x1
  | .zc => some 0x2
  | .tick => some 0x3
  | .cm _ => some 0x4
  | .start _ => some 0x5
  | .stop => some 0x6
  | .rise _ => some 0x7
  | .fall => some 0x8
  | .bb => some 0x9
  | .reqwr _ _ => some 0xA
  | .rxtake => some 0xB
  | .rd _ => some 0xC
  | .reservedD _ => some 0xD
  | .reservedE _ => some 0xE
  | .reservedF _ => some 0xF
  | .wireAddrMatch _ => none
  | .wireAddrMismatch _ _ => none
  | .wireData _ => none
  | .wireAck => none

/-- The operation code the encoder writes in `word[15:12]` is the table's, under every parameter record
(30_encoding.md R87, R88). -/
def Statement (i : Instr) : Prop :=
  ∀ cfg : Config,
    (match encode cfg i with
      | .evt w => some (evtOp w).toNat
      | .addr8 _ => none
      | .data8 _ => none
      | .ack1 _ => none) = opCode i

/-- The operation code of a reserved word is what stands above its 12 other bits (30_encoding.md R90). -/
theorem evtOp_append (op : BitVec 4) (x : BitVec 12) : (evtOp (op ++ x)).toNat = op.toNat := by
  have hx := x.isLt
  rw [evtOp_toNat, BitVec.toNat_append, ← Nat.shiftLeft_add_eq_or_of_lt hx, Nat.shiftLeft_eq]
  omega

theorem reset : Statement .reset := fun _ => congrArg some (congrArg BitVec.toNat (evtOp_evtWord _ _ _))

theorem init : Statement .init := fun _ => congrArg some (congrArg BitVec.toNat (evtOp_evtWord _ _ _))

theorem zc : Statement .zc := fun _ => congrArg some (congrArg BitVec.toNat (evtOp_evtWord _ _ _))

theorem tick : Statement .tick := fun _ => congrArg some (congrArg BitVec.toNat (evtOp_evtWord _ _ _))

theorem cm (ch : BitVec 2) : Statement (.cm ch) := fun _ => congrArg some (congrArg BitVec.toNat (evtOp_evtWord _ _ _))

theorem start (b : Bool) : Statement (.start b) := fun _ => congrArg some (congrArg BitVec.toNat (evtOp_evtWord _ _ _))

theorem stop : Statement .stop := fun _ => congrArg some (congrArg BitVec.toNat (evtOp_evtWord _ _ _))

theorem rise (b : Bool) : Statement (.rise b) := fun _ => congrArg some (congrArg BitVec.toNat (evtOp_evtWord _ _ _))

theorem fall : Statement .fall := fun _ => congrArg some (congrArg BitVec.toNat (evtOp_evtWord _ _ _))

theorem bb : Statement .bb := fun _ => congrArg some (congrArg BitVec.toNat (evtOp_evtWord _ _ _))

theorem reqwr (ch : BitVec 2) (v : Byte) : Statement (.reqwr ch v) := fun _ => congrArg some (congrArg BitVec.toNat (evtOp_evtWord _ _ _))

theorem rxtake : Statement .rxtake := fun _ => congrArg some (congrArg BitVec.toNat (evtOp_evtWord _ _ _))

theorem rd (n : RegNum) : Statement (.rd n) := fun _ => congrArg some (congrArg BitVec.toNat (evtOp_evtWord _ _ _))

theorem reservedD (x : BitVec 12) : Statement (.reservedD x) :=
  fun _ => congrArg some (evtOp_append _ x)

theorem reservedE (x : BitVec 12) : Statement (.reservedE x) :=
  fun _ => congrArg some (evtOp_append _ x)

theorem reservedF (x : BitVec 12) : Statement (.reservedF x) :=
  fun _ => congrArg some (evtOp_append _ x)

theorem wireAddrMatch (rw : Bool) : Statement (.wireAddrMatch rw) := fun _ => rfl

theorem wireAddrMismatch (addr : BitVec 7) (rw : Bool) : Statement (.wireAddrMismatch addr rw) := fun _ => rfl

theorem wireData (d : Byte) : Statement (.wireData d) := fun _ => rfl

theorem wireAck : Statement .wireAck := fun _ => rfl

end Sys2Proof.Laws.OpField
end

