-- ==== Sys2Proof/Machine/TraceText.lean ====
section
/-! DEFINITION. Trace text: one operation or pseudo-operation a line, read into the inputs it stands for (spec
30_encoding.md R93, R94). It is how a program is written; no step reads it. -/

namespace Sys2Proof.Machine

/-- The words a line can begin with: the mnemonics of 30_encoding.md R88 and the pseudo-operations of R94. -/
inductive LineWord where
  | reset
  | init
  | zc
  | tick
  | cm
  | start
  | stop
  | rise
  | fall
  | bb
  | reqwr
  | rxtake
  | rd
  | ticks
  | halfcycle
  | byte
  | ackclk
  | stopseq
  | frame
  | pktapply
  | recvpkt
  deriving DecidableEq, Repr

/-- The spelling of the mnemonics, in upper case (30_encoding.md R88, R93). -/
def operationWords : List (List Char × LineWord) :=
  [(['R', 'E', 'S', 'E', 'T'], .reset), (['I', 'N', 'I', 'T'], .init), (['Z', 'C'], .zc),
    (['T', 'I', 'C', 'K'], .tick), (['C', 'M'], .cm), (['S', 'T', 'A', 'R', 'T'], .start),
    (['S', 'T', 'O', 'P'], .stop), (['R', 'I', 'S', 'E'], .rise), (['F', 'A', 'L', 'L'], .fall),
    (['B', 'B'], .bb), (['R', 'E', 'Q', 'W', 'R'], .reqwr), (['R', 'X', 'T', 'A', 'K', 'E'], .rxtake),
    (['R', 'D'], .rd)]

/-- The spelling of the pseudo-operations (30_encoding.md R94). -/
def pseudoWords : List (List Char × LineWord) :=
  [(['T', 'I', 'C', 'K', 'S'], .ticks), (['H', 'A', 'L', 'F', 'C', 'Y', 'C', 'L', 'E'], .halfcycle),
    (['B', 'Y', 'T', 'E'], .byte), (['A', 'C', 'K', 'C', 'L', 'K'], .ackclk),
    (['S', 'T', 'O', 'P', 'S', 'E', 'Q'], .stopseq), (['F', 'R', 'A', 'M', 'E'], .frame),
    (['P', 'K', 'T', 'A', 'P', 'P', 'L', 'Y'], .pktapply), (['R', 'E', 'C', 'V', 'P', 'K', 'T'], .recvpkt)]

/-- The word a line begins with. -/
def lineWord (w : List Char) : Option LineWord := (operationWords ++ pseudoWords).lookup w

/-- A digit of a decimal or a hexadecimal number. -/
def digitValue (base : Nat) (c : Char) : Option Nat :=
  if 48 ≤ c.toNat ∧ c.toNat < 58 then some (c.toNat - 48)
  else if base = 16 ∧ 65 ≤ c.toNat ∧ c.toNat < 71 then some (c.toNat - 55)
  else if base = 16 ∧ 97 ≤ c.toNat ∧ c.toNat < 103 then some (c.toNat - 87)
  else none

/-- The digits that follow a number read so far. -/
def digits (base : Nat) : Nat → List Char → Option Nat
  | n, [] => some n
  | n, c :: cs =>
    match digitValue base c with
    | some d => digits base (base * n + d) cs
    | none => none

/-- A number, decimal or `0x` hexadecimal (30_encoding.md R93). -/
def number : List Char → Option Nat
  | [] => none
  | '0' :: 'x' :: c :: cs => digits 16 0 (c :: cs)
  | c :: cs => digits 10 0 (c :: cs)

/-- A text cut at a separator. -/
def cutAt (sep : Char) : List Char → List (List Char)
  | [] => [[]]
  | c :: cs =>
    if c = sep then [] :: cutAt sep cs
    else
      match cutAt sep cs with
      | f :: fs => (c :: f) :: fs
      | [] => [[c]]

/-- Blank space within a line. -/
def blank (c : Char) : Bool := c == ' ' || c == '\t' || c == '\r'

/-- A text without blank space at its ends. -/
def trimmed (cs : List Char) : List Char := ((cs.dropWhile blank).reverse.dropWhile blank).reverse

/-- The operands of a line, separated by commas (30_encoding.md R93). -/
def operandNumbers (cs : List Char) : Option (List Nat) :=
  match trimmed cs with
  | [] => some []
  | c :: cs => (cutAt ',' (c :: cs)).mapM fun f => number (trimmed f)

/-- Operations as inputs: each is its event word (30_encoding.md R87). -/
def opInputs (cfg : Config) (l : List Instr) : List Input := l.map fun i => .code (encode cfg i)

/-- Operations that stand if their operands are in range. -/
def opLine (cfg : Config) (inRange : Bool) (l : List Instr) : Option (List Input) :=
  if inRange then some (opInputs cfg l) else none

/-- The inputs of a word with its operands: an operation, or the expansion of a pseudo-operation
(30_encoding.md R88, R94). `RECVPKT n` is the call; the host's polls are steps of its own (log 8). -/
def lineInputs (cfg : Config) : LineWord → List Nat → Option (List Input)
  | .reset, [] => opLine cfg true [.reset]
  | .init, [] => opLine cfg true [.init]
  | .zc, [] => opLine cfg true [.zc]
  | .tick, [] => opLine cfg true [.tick]
  | .cm, [ch] => opLine cfg (decide (ch < 4)) [.cm (BitVec.ofNat 2 ch)]
  | .start, [s] => opLine cfg (decide (s < 2)) [.start (s == 1)]
  | .stop, [] => opLine cfg true [.stop]
  | .rise, [b] => opLine cfg (decide (b < 2)) [.rise (b == 1)]
  | .fall, [] => opLine cfg true [.fall]
  | .bb, [] => opLine cfg true [.bb]
  | .reqwr, [ch, v] => opLine cfg (decide (ch < 4 ∧ v < 256)) [.reqwr (BitVec.ofNat 2 ch) (BitVec.ofNat 8 v)]
  | .rxtake, [] => opLine cfg true [.rxtake]
  | .rd, [n] => opLine cfg (decide (n < 64)) [.rd (BitVec.ofNat 6 n)]
  | .ticks, [n] => opLine cfg true (ticksOps n)
  | .halfcycle, [h] => opLine cfg true (halfCycleOps h)
  | .byte, [v] => opLine cfg (decide (v < 256)) (byteOps (BitVec.ofNat 8 v))
  | .ackclk, [] => opLine cfg true ackOps
  | .stopseq, [] => opLine cfg true stopSeqOps
  | .frame, a :: b :: bs =>
    opLine cfg ((a :: b :: bs).all fun v => decide (v < 256))
      (frameOps (BitVec.ofNat 8 a) ((b :: bs).map (BitVec.ofNat 8)))
  | .pktapply, [i, d] =>
    opLine cfg (decide (i < 256 ∧ d < 256)) (pktApplyOps cfg (BitVec.ofNat 8 i) (BitVec.ofNat 8 d))
  | .recvpkt, [n] => some [.recvPacket n]
  | _, _ => none

/-- One line: a comment from `;` on, an operation or pseudo-operation, or nothing (30_encoding.md R93). -/
def readLine (cfg : Config) (line : List Char) : Option (List Input) :=
  match trimmed (line.takeWhile fun c => c != ';') with
  | [] => some []
  | c :: cs =>
    match lineWord ((c :: cs).takeWhile fun c => !blank c), operandNumbers ((c :: cs).dropWhile fun c => !blank c) with
    | some w, some ns => lineInputs cfg w ns
    | _, _ => none

/-- A trace written as text (30_encoding.md R93); none where a line is no operation. -/
def readTrace (cfg : Config) (text : List Char) : Option (List Input) :=
  ((cutAt '\n' text).mapM (readLine cfg)).map List.flatten

end Sys2Proof.Machine
end

