-- ==== Sys2Proof/Tests/Slice0.lean ====
section
/-! SUPPORT. Tests on small states, their expected results taken from spec/95_test_vectors.md (the vector is named
before each), and for each statement with hypotheses a witness that meets them. -/

namespace Sys2Proof.Tests

open Sys2Proof Sys2Proof.Machine Sys2Proof.Safety

/-! ### Helpers -/

/-- An enabled channel. -/
def chan (zcp : Bool) (applied requested : Dim) (drive : Bool) (cnt cmp : TimerReg) : Chan :=
  ⟨zcp, applied, requested, drive, cnt, cmp, true⟩

/-- An initialised block under REF with these channels and this receiver. -/
def box (cs : List Chan) (r : Ssr) : State :=
  { State.reset with zcEn := true, ssrEn := true, chans := cs, ssr := r }

/-- The receiver when nothing was sent yet, with numbers in place of the free values. -/
def idle : Ssr := Ssr.atReset 0x11 0x22

/-- The receiver that has seen a start. -/
def started : Ssr := ⟨.checkAddress, .counting, 0x11, 0, 8, false, 0x22, .terminated⟩

/-- The receiver that waits for the clock of its acknowledge. -/
def acking : Ssr := ⟨.recvDataWait, .counting, 0xD4, 0, 1, true, 0x22, .pending⟩

/-- The receiver that waits for a data byte, with this status and latch. -/
def receiving (data : Byte) (status : RxStatus) : Ssr := ⟨.recvDataAckSend, .counting, 0xA8, 0, 8, false, data, status⟩

/-- The receiver with a full data byte in its shift register. -/
def full (data : Byte) (status : RxStatus) : Ssr := ⟨.recvDataAckSend, .counting, 0x50, 8, 8, false, data, status⟩

/-- Three quiet channels at these brightnesses, applied and requested. -/
def dims (a b c : Dim) (p : Bool) (da db dc : Bool) (n : TimerReg) : List Chan :=
  [chan p a a da n (cmpReg Config.ref 0 a.toNat), chan p b b db n (cmpReg Config.ref 1 b.toNat),
    chan p c c dc n (cmpReg Config.ref 2 c.toNat)]

/-- Three channels that stand in the middle of nothing. -/
def calm : List Chan := dims 19 80 19 false false false false 9

/-- What an outcome that goes on shows of its state. -/
def after {α : Type} (o : Result) (f : State → α) : Option α :=
  match o with
  | .next t => some (f t)
  | .fault _ => none
  | .refused _ => none

/-- The name of an outcome that is a refusal. -/
def refusal (o : Result) : Option Refusal :=
  match o with
  | .next _ => none
  | .fault _ => none
  | .refused r => some r

def drives (s : State) : List Bool := s.chans.map Chan.drive
def flags (s : State) : List Bool := s.chans.map Chan.zcp
def counts (s : State) : List TimerReg := s.chans.map Chan.cnt
def ssrOf (s : State) : Ssr := s.ssr

/-- The words the decoder refuses under REF. -/
def illegal (w : EventWord) : Bool :=
  match decode Config.ref (.evt w) with
  | .ok _ => false
  | .error _ => true

/-! ### WellFormed (30_encoding.md R81, R90) -/

theorem test_wf_refuses_ill_formed :
    ([.cm 3, .reqwr 3 0, .rd 0x07, .reservedD 0, .reservedE 0x123, .reservedF 0xFFF, .wireAddrMismatch 0x6A false] :
      List Instr).all (fun i => i.wf Config.ref == false) = true := by decide

theorem test_wf_accepts :
    ([.cm 2, .reqwr 2 255, .rd 0x06, .rd 0x1E, .wireAddrMismatch 0x6B true, .wireAck] : List Instr).all
      (fun i => i.wf Config.ref) = true := by decide

/-! ### Decoding: words written out from the spec's tables -/

-- VE1
theorem test_decode_events :
    decodeTableWord 16 0x0000 = some .reset ∧ decodeTableWord 16 0x1000 = some .init ∧
    decodeTableWord 16 0x2000 = some .zc ∧ decodeTableWord 16 0x3000 = some .tick ∧
    decodeTableWord 16 0x4100 = some (.cm 1) ∧ decodeTableWord 16 0x5001 = some (.start true) ∧
    decodeTableWord 16 0x6000 = some .stop ∧ decodeTableWord 16 0x7001 = some (.rise true) := by decide

-- VE1
theorem test_decode_host_events :
    decodeTableWord 16 0x8000 = some .fall ∧ decodeTableWord 16 0x9000 = some .bb ∧
    decodeTableWord 16 0xA150 = some (.reqwr 1 80) ∧ decodeTableWord 16 0xA2FF = some (.reqwr 2 255) ∧
    decodeTableWord 16 0xB000 = some .rxtake ∧ decodeTableWord 16 0xC000 = some (.rd 0) ∧
    decodeTableWord 16 0xC006 = some (.rd 6) ∧ decodeTableWord 16 0xC01E = some (.rd 0x1E) := by decide

-- VE2
theorem test_decode_illegal :
    ([0xD000, 0xE123, 0xFFFF, 0x0001, 0x3100, 0x2400, 0x4300, 0xA364, 0x4001, 0x5002, 0x7002, 0xC040, 0xC007, 0xC00F,
      0xC013, 0xC017, 0xC01B, 0xC01F, 0xC020, 0xC03F] : List EventWord).all illegal = true := by decide

-- 30_encoding.md R90, by name
theorem test_decode_reserved :
    decode Config.ref (.evt 0xD000) = .error (.reservedOp 0xD) ∧
    decode Config.ref (.evt 0xE123) = .error (.reservedOp 0xE) ∧
    decode Config.ref (.evt 0xFFFF) = .error (.reservedOp 0xF) := ⟨rfl, rfl, rfl⟩

-- VE3
theorem test_decode_wire :
    decode Config.ref (.addr8 0xD4) = .ok (.wireAddrMatch false) ∧
    decode Config.ref (.addr8 0xD5) = .ok (.wireAddrMatch true) ∧
    decode Config.ref (.addr8 0xD6) = .ok (.wireAddrMismatch 0x6B false) ∧
    decode Config.ref (.addr8 0xFF) = .ok (.wireAddrMismatch 0x7F true) ∧
    decode Config.ref (.data8 0x50) = .ok (.wireData 0x50) ∧
    decode Config.ref (.ack1 false) = .ok .wireAck := ⟨rfl, rfl, rfl, rfl, rfl, rfl⟩

/-! ### The zero-cross detector -/

-- VZ1
theorem test_zc_accepted :
    after (exec .zc (box (dims 19 80 96 false false true true 140) idle)) (fun t => (flags t, drives t, counts t)) =
      some ([true, true, true], [false, false, true], [0, 0, 0]) := by decide

-- VZ9
theorem test_zc_dropped :
    after (exec .zc (box [chan false 50 50 true 9 78, chan false 50 50 true 9 78, chan true 50 50 true 9 78] idle))
      (fun t => (drives t, t.ghost)) = some ([true, true, true], ⟨1, 0, [.zcOverrun]⟩) := by decide

/-! ### The timer -/

-- VT2
theorem test_tick_wraps_and_serves :
    after (exec .tick (box [chan true 100 100 false 255 0, chan false 0 0 false 255 156, chan false 0 0 false 255 156]
      idle)) (fun t => (flags t, drives t, counts t)) =
      some ([false, false, false], [true, false, false], [0, 0, 0]) := by decide

-- VT4
theorem test_tick_two_matches :
    after (exec .tick (box [chan true 19 19 false 125 126, chan false 80 80 true 125 31, chan true 19 19 false 125 126]
      idle)) (fun t => (flags t, drives t, counts t)) =
      some ([false, false, false], [false, true, false], [126, 126, 126]) := by decide

-- VC3b
theorem test_cm_fires_on_the_old_value :
    after (exec (.cm 1) (box [chan false 0 0 false 0 156, chan true 80 19 false 31 31, chan false 0 0 false 0 156] idle))
      (fun t => t.chans[1]?) = some (some (chan false 19 19 true 31 126)) := by decide

-- VC5
theorem test_cm_at_min_does_not_fire :
    after (exec (.cm 1) (box [chan false 0 0 false 0 156, chan true 20 20 false 0 125] idle))
      (fun t => t.chans[1]?) = some (some (chan false 20 20 false 0 125)) := by decide

/-! ### The receiver -/

-- VS1
theorem test_start_low :
    after (exec (.start false) (box [] ⟨.recvDataAckSend, .counting, 0x45, 3, 8, false, 0, .pending⟩)) ssrOf =
      some ⟨.checkAddress, .counting, 0x45, 0, 8, false, 0, .terminated⟩ := by decide

-- VS13, START 1
theorem test_start_high :
    after (exec (.start true) (box [] acking)) ssrOf =
      some ⟨.checkAddress, .startOnly, 0xD4, 0, 8, false, 0x22, .terminated⟩ := by decide

-- VS14
theorem test_stop_ignored : after (exec .stop (box [] acking)) ssrOf = some acking := by decide

-- VS15, the STOP of STOPSEQ
theorem test_stop_terminates :
    after (exec .stop { box [] ⟨.recvDataAckSend, .counting, 0x04, 1, 8, false, 1, .received⟩ with
      cfg := { Config.ref with pStopIrq := true } }) ssrOf =
      some ⟨.checkAddress, .startOnly, 0x04, 0, 8, false, 1, .terminated⟩ := by decide

-- VS3
theorem test_rise_samples_its_own_pull :
    after (exec (.rise true) (box [] acking)) ssrOf =
      some ⟨.recvDataWait, .counting, 0xA8, 1, 1, true, 0x22, .pending⟩ := by decide

-- 42_serial_receiver.md R144
theorem test_rise_refused_at_eight :
    refusal (exec (.rise true) (box [] (full 0 .pending))) = some .riseWithoutFall := by decide

-- VS5
theorem test_fall_before_the_target :
    after (exec .fall (box [] ⟨.checkAddress, .counting, 0x16, 5, 8, false, 0, .terminated⟩)) ssrOf =
      some ⟨.checkAddress, .counting, 0x16, 5, 8, false, 0, .terminated⟩ := by decide

-- VS10
theorem test_fall_drops_a_byte :
    after (exec .fall (box [] (full 0x01 .received))) (fun t => (t.ssr, t.ghost)) =
      some (⟨.recvDataWait, .counting, 0x50, 0, 1, true, 0x01, .received⟩, ⟨0, 1, [.rxOverrun 0x50]⟩) := by decide

-- VS9
theorem test_bb_latches :
    after (exec .bb (box [] (full 0x22 .pending))) ssrOf =
      some ⟨.recvDataWait, .counting, 0x50, 0, 1, true, 0x50, .received⟩ := by decide

-- VS17
theorem test_bb_aborts :
    after (exec .bb (box [] ⟨.recvDataWait, .counting, 0xA8, 1, 1, true, 0, .terminated⟩)) ssrOf =
      some ⟨.checkAddress, .startOnly, 0xA8, 0, 8, false, 0, .terminated⟩ := by decide

-- VS6
theorem test_wire_address :
    after (exec (.wireAddrMatch true) (box [] started)) ssrOf =
      some ⟨.recvDataWait, .counting, 0xD5, 0, 1, true, 0x22, .pending⟩ := by decide

-- VS7
theorem test_wire_other_address :
    after (exec (.wireAddrMismatch 0x6B false) (box [] started)) ssrOf =
      some ⟨.checkAddress, .startOnly, 0xD6, 0, 8, false, 0x22, .terminated⟩ := by decide

-- VS8
theorem test_wire_ack :
    after (exec .wireAck (box [] acking)) ssrOf =
      some ⟨.recvDataAckSend, .counting, 0xA8, 0, 8, false, 0x22, .pending⟩ := by decide

-- VS11, its data byte
theorem test_wire_data :
    after (exec (.wireData 0xFF) (box [] (receiving 0x22 .pending))) ssrOf =
      some ⟨.recvDataWait, .counting, 0xFF, 0, 1, true, 0xFF, .received⟩ := by decide

/-! ### The host's operations -/

-- VH1
theorem test_reset :
    after (exec .reset (box (dims 80 80 80 true true true true 77) acking))
      (fun t => (t.chans, ctrlWord t, t.ssr.state, t.ssr.mode, t.ssr.bitTarget)) =
      some (List.replicate 3 ⟨false, 0, 0, false, 0, 156, false⟩, 0, .checkAddress, .startOnly, 8) := by decide

-- VH2
theorem test_init_then_ctrl :
    after (exec .init State.reset) (fun t => readValue t 0x00) = some (some 0x001F) := by decide

-- VH5
theorem test_rd_status :
    after (exec (.rd 0x02) (box [] ⟨.recvDataWait, .counting, 1, 0, 1, true, 1, .received⟩)) State.reads =
      some [⟨0x02, 0x16⟩] := by decide

-- VH5
theorem test_rd_take :
    after (exec (.rd 0x06) (box [] ⟨.recvDataWait, .counting, 1, 0, 1, true, 1, .received⟩))
      (fun t => (t.reads, t.ssr.rxStatus)) = some ([⟨0x06, 0x0201⟩], .pending) := by decide

-- VH6
theorem test_reqwr_clamps :
    after (exec (.reqwr 0 200) (box calm idle)) (fun t => t.chans.map Chan.requested) = some [100, 80, 19] := by decide

-- VH8
theorem test_rxtake :
    after (exec .rxtake (box [] (full 0x50 .received))) (fun t => (t.reads, t.ssr.rxStatus, t.ssr.rxData)) =
      some ([⟨0x06, 0x0250⟩], .pending, 0x50) := by decide

-- VH11
theorem test_packet_clamp :
    [80, 0, 19, 20, 95, 96, 100, 255].map (sentinelClamp Config.ref) = [80, 19, 19, 20, 95, 96, 96, 96] := by decide

-- 60_exceptions.md R193, its table
theorem test_source_ids :
    ([.zeroCross, .compareMatch 0, .compareMatch 1, .compareMatch 2, .serialStart, .serialOverflow, .compareMatch 3] :
      List EventSource).map (sourceId 3) = [some 0, some 1, some 2, some 3, some 4, some 5, none] ∧
    sourceId 1 (.compareMatch 1) = none := by decide

-- VX5
theorem test_overflow_refused :
    refusal (step { State.reset with cfg := { Config.ref with fClk := 1638400 } }) = some (.cmpOverflow 0) := by decide

/-! ### Steps -/

/-- A state whose next input is this one. -/
def fed (s : State) (x : Input) : State := { s with trace := [x] }

/-- The fetch hook: the very next step of the state right after reset runs the word. -/
theorem test_fetch_word :
    after (step (State.reset.withFetchWord 16 0x1000)) (fun t => (t.zcEn, t.ssrEn)) = some (true, true) ∧
    refusal (step (State.reset.withFetchWord 16 0xD000)) = some (.illegalWord (.reservedOp 0xD) 0) := by decide

/-- A front end with these levels, the history equal to them. -/
def lines (zc scl sda pending : Bool) : Front := ⟨zc, scl, sda, zc, scl, sda, pending⟩

-- VE4, samples 1 and 2, and 10
theorem test_front_end_start :
    after (step { box calm idle with ports := [.sdaIn false] }) State.front =
      some (lines false true false true) ∧
    after (step { box calm idle with front := lines false true false true, ports := [.scl false] })
      (fun t => (t.front, t.ssr.mode)) = some (lines false false false false, .counting) ∧
    after (step { box calm started with front := lines false true false true, ports := [.sdaIn true] })
      (fun t => (t.front, t.ssr.mode)) = some (lines false true true false, .startOnly) := by decide

-- VE4, samples 11 and 12
theorem test_front_end_zero_cross :
    after (step { box calm idle with ports := [.zcIn true] }) flags = some [true, true, true] ∧
    after (step { box calm idle with front := lines true true true false, ports := [.zcIn false] }) flags =
      some [false, false, false] := by decide

/-! ### Trace text (30_encoding.md R93 to R95) -/

-- VH6, VH11
theorem test_text_operations :
    readLine Config.ref "REQWR 0, 0xC8 ; the port clamps".toList = some [.code (.evt 0xA0C8)] ∧
    readLine Config.ref "PKTAPPLY 0, 255".toList = some [.code (.evt 0xA060)] ∧
    readLine Config.ref "TICK 1".toList = none := by decide

-- 30_encoding.md R95
theorem test_text_frame : (readLine Config.ref "FRAME 0xD4, 1, 80".toList).map List.length = some 57 := by decide

theorem test_text_lines : readTrace Config.ref "RESET\nINIT\n\nHALFCYCLE 1\nRECVPKT 2".toList =
    some [.code (.evt 0x0000), .code (.evt 0x1000), .code (.evt 0x2000), .code (.evt 0x3000), .recvPacket 2] := by
  decide

/-! ### Witnesses of the statements with hypotheses -/

/-- A record refused by `OVF_POLICY = refuse`, the same under the two other policies, and one with 16-bit
registers. -/
def wide (o : OvfPolicy) : Config := { Config.refWith 8000000 [8, 8, 8] with ovf := o }

theorem witness_DecodeUndoesEncode : configOK Config.ref = true ∧
    ([.reset, .cm 2, .start true, .reqwr 2 255, .rd 0x1E, .wireAddrMatch true, .wireAddrMismatch 0x7F true] :
      List Instr).all (fun i => i.wf Config.ref) = true := by decide

theorem witness_EncodeUndoesDecode : decode Config.ref (.evt 0xC01E) = .ok (.rd 0x1E) ∧
    decode Config.ref (.addr8 0xD4) = .ok (.wireAddrMatch false) := ⟨rfl, rfl⟩

theorem witness_IllegalEventWordsAreExact_field : badField 2 1 0 0 ∧ badField 12 0 0 64 ∧ badField 5 0 0 2 ∧
    ¬ badField 4 0 3 0 ∧ ¬ badField 12 0 0 63 ∧ ¬ badField 12 0 0 30 := by
  refine ⟨?_, ?_, ?_, ?_, ?_, ?_⟩ <;> decide

theorem witness_IllegalEventWordsAreExact_number : badChannel 3 4 3 ∧ ¬ badChannel 3 4 2 ∧ badRegister 3 12 63 ∧
    badRegister 3 12 7 ∧ ¬ badRegister 3 12 6 ∧ ¬ badRegister 3 12 30 := by decide

theorem witness_IllegalEventWordsAreExact_step : recordOK (fed State.reset (.code (.evt 0x4300))).cfg = true ∧
    (fed State.reset (.code (.evt 0x4300))).ports = [] ∧
    (fed State.reset (.code (.evt 0x4300))).trace = [.code (.evt 0x4300)] ∧
    decode Config.ref (.evt 0x4300) = .error (.noSuchChannel 3) := ⟨by decide, rfl, rfl, rfl⟩

theorem witness_StepRunsDecoded : recordOK (fed State.reset (.code (.evt 0xA150))).cfg = true ∧
    (fed State.reset (.code (.evt 0xA150))).ports = [] ∧
    (fed State.reset (.code (.evt 0xA150))).trace = [.code (.evt 0xA150)] ∧
    decode Config.ref (.evt 0xA150) = .ok (.reqwr 1 80) := ⟨by decide, rfl, rfl, rfl⟩

theorem witness_IllFormedRecordsRefused :
    configOK { Config.ref with maxPct := 100 } = false ∧ configOK (wide .refuse) = false := by decide

theorem witness_RunEndsWithTrace :
    recordOK State.reset.cfg = true ∧ State.reset.ports = [] ∧ State.reset.trace = [] := by decide

theorem witness_DelayIsTheFloor : 1 ≤ Config.ref.prescaler ∧ 1 ≤ Config.ref.kStep := by decide

theorem witness_DelayIsMonotone : configOK Config.ref = true ∧ 99 ≤ 100 := by decide

theorem witness_CompareValueFits : configOK Config.ref = true ∧ Config.ref.ovf = .refuse ∧
    configOK (wide .truncate) = true ∧ configOK (wide .saturate) = true ∧
    2 ^ (wide .refuse).width 2 ≤ delay (wide .refuse) 0 ∧ 2 < (wide .refuse).nCh := by decide

theorem witness_ResetRegisters : configOK Config.ref = true ∧
    ∃ u t, u.cfg = Config.ref ∧ exec .reset u = .next t := ⟨by decide, State.reset, _, rfl, rfl⟩

theorem witness_ZeroCross : State.reset.zcEn = false ∧ (box calm idle).zcEn = true ∧
    (∀ c ∈ (box calm idle).chans, c.zcp = false) ∧
    ∃ c ∈ (box (dims 50 50 50 true false false false 9) idle).chans, c.zcp = true := by decide

theorem witness_BounceIsDropped : configOK (box calm idle).cfg = true ∧
    (box calm idle).chans.length = (box calm idle).cfg.nCh ∧ (box calm idle).zcEn = true ∧
    ∀ c ∈ (box calm idle).chans, c.zcp = false ∧ c.cmEn = true := by decide

theorem witness_CompareService : (box calm idle).chans[(2 : BitVec 2).toNat]? = some (chan false 19 19 false 9 126) ∧
    (chan false 19 19 false 9 126).cmEn = true ∧ State.reset.chans[(0 : BitVec 2).toNat]?.map Chan.cmEn = some false := by
  decide

theorem witness_TickServesMatches : configOK (box calm idle).cfg = true ∧
    (box calm idle).chans.length = (box calm idle).cfg.nCh ∧
    (box calm idle).chans[2]? = some (chan false 19 19 false 9 126) := by decide

theorem witness_CountersAreFreeRunning : configOK (box calm idle).cfg = true ∧ 2 < (box calm idle).cfg.nCh ∧
    (box calm idle).chans[2]? = some (chan false 19 19 false 9 126) ∧
    (chan false 19 19 false 9 126).cnt.toNat < 2 ^ (box calm idle).cfg.width 2 := by decide

/-- Channels at full brightness, with the compare value 0 (41_phase_timer.md R129 (a)). -/
def bright : List Chan := dims 100 100 100 false false false false 9

/-- The bounds of the run: `n = 0`, the tick before the match, the match, and the tick of the wrap; and a channel
whose match is that tick. -/
theorem witness_FiresAfterItsDelay : configOK (box calm idle).cfg = true ∧
    (box calm idle).chans.length = (box calm idle).cfg.nCh ∧ (box calm idle).zcEn = true ∧
    (∀ b ∈ (box calm idle).chans, b.zcp = false) ∧
    (box calm idle).chans[1]? = some (chan false 80 80 false 9 31) ∧ (chan false 80 80 false 9 31).cmEn = true ∧
    (31 : TimerReg).toNat < 2 ^ (box calm idle).cfg.width 1 ∧ (31 : TimerReg) ≠ 0 ∧
    ∀ n ∈ [0, 30, 31, 256], n ≤ 2 ^ (box calm idle).cfg.width 1 := by decide

theorem witness_FiresAfterItsDelay_zero : (box bright idle).chans.length = (box bright idle).cfg.nCh ∧
    (∀ b ∈ (box bright idle).chans, b.zcp = false) ∧
    (box bright idle).chans[2]? = some (chan false 100 100 false 9 0) ∧
    (0 : TimerReg).toNat < 2 ^ (box bright idle).cfg.width 2 := by decide

/-- A trace with a bounce and a compare match, whose one fire decision is counted. -/
theorem witness_AtMostOneFirePerZeroCross :
    noAcceptedZc [.zc, .cm 1] (box (dims 80 80 80 true false false false 9) idle) ∧
    fireDecisions 1 [.zc, .cm 1] (box (dims 80 80 80 true false false false 9) idle) = 1 :=
  ⟨⟨fun _ => .inl (by decide), by rintro ⟨⟩, trivial⟩, by decide⟩

theorem witness_DriveMovesOnlyByItsRules :
    after (exec (.cm 1) (box [chan false 0 0 false 0 156, chan true 21 21 false 9 123] idle)) drives =
      some [false, true] ∧
    after (exec .zc (box [chan false 94 94 true 9 9, chan false 95 95 true 9 7] idle)) drives =
      some [false, true] := by decide

theorem witness_StartService : State.reset.ssrEn = false ∧ (box calm idle).ssrEn = true := by decide

theorem witness_StopCondition : State.reset.cfg.pStopIrq = false ∧
    ({ State.reset with cfg := { Config.ref with pStopIrq := true } } : State).cfg.pStopIrq = true := by decide

theorem witness_RiseShifts : idle.mode = .startOnly ∧ (box [] started).ssrEn = true ∧
    (box [] started).ssr.mode = .counting ∧ (box [] started).ssr.bitCnt.toNat < 8 ∧
    8 ≤ (full 0 .pending).bitCnt.toNat ∧ (full 0 .pending).mode = .counting := by decide

theorem witness_FallIsTheBoundary : (box [] (full 0 .pending)).ssrEn = true ∧
    (full 0 .pending).mode = .counting ∧ (full 0 .pending).bitCnt = (full 0 .pending).bitTarget ∧
    started.bitCnt ≠ started.bitTarget := by decide

theorem witness_BoundaryOfAddress : (box [] started).ssrEn = true ∧ started.mode = .counting ∧
    started.state = .checkAddress ∧ (0xD5 : Byte).toNat / 2 = Config.ref.slaveAddr ∧
    started.sr.toNat / 2 ≠ Config.ref.slaveAddr := by decide

theorem witness_BoundaryOfAcknowledge : (box [] acking).ssrEn = true ∧ acking.mode = .counting ∧
    acking.state = .recvDataWait ∧ acking.rxStatus ≠ .terminated ∧
    ({ acking with rxStatus := .terminated } : Ssr).rxStatus = .terminated := by decide

theorem witness_BoundaryOfData : (box [] (full 0 .pending)).ssrEn = true ∧ (full 0 .pending).mode = .counting ∧
    (full 0 .pending).state = .recvDataAckSend ∧ (full 0 .pending).rxStatus = .pending ∧
    (full 0 .received).rxStatus ≠ .pending := by decide

theorem witness_IdleUntilStart : (box [] idle).ssr.mode = .startOnly ∧ (box [] idle).ssr.sdaDrive = false ∧
    (∀ i ∈ ([.start true, .rise true, .wireData 0x50, .rxtake] : List Instr), i ≠ .reset ∧ i ≠ .start false) ∧
    after (runOps [.start true, .rise true, .wireData 0x50, .rxtake] (box [] idle)) ssrOf = some idle := by decide

theorem witness_AddressByteOnTheWire : configOK (box [] started).cfg = true ∧ (box [] started).ssrEn = true ∧
    started.mode = .counting ∧ started.state = .checkAddress ∧ started.bitCnt = 0 ∧ started.bitTarget = 8 ∧
    started.sdaDrive = false ∧ (0xD5 : Byte).toNat = 2 * Config.ref.slaveAddr + true.toNat ∧
    (0x6B : BitVec 7).toNat ≠ Config.ref.slaveAddr ∧
    (0xD6 : Byte).toNat = 2 * (0x6B : BitVec 7).toNat + false.toNat := by decide

theorem witness_DataByteOnTheWire : (box [] (receiving 0 .pending)).ssrEn = true ∧
    (receiving 0 .pending).mode = .counting ∧ (receiving 0 .pending).state = .recvDataAckSend ∧
    (receiving 0 .pending).bitCnt = 0 ∧ (receiving 0 .pending).bitTarget = 8 ∧
    (receiving 0 .pending).sdaDrive = false ∧ (receiving 0 .pending).rxStatus = .pending ∧
    (receiving 0 .received).rxStatus ≠ .pending := by decide

theorem witness_AcknowledgeOnTheWire : (box [] acking).ssrEn = true ∧ acking.mode = .counting ∧
    acking.state = .recvDataWait ∧ acking.bitCnt = 0 ∧ acking.bitTarget = 1 ∧ acking.sdaDrive = true ∧
    acking.rxStatus ≠ .terminated ∧ (0xA8 : Byte).toNat = 2 * acking.sr.toNat % 256 := by decide

theorem witness_GatedReceiverIgnoresTheWire : (box [] idle).ssrEn = true ∧ (box [] idle).ssr.mode = .startOnly := by
  decide

theorem witness_TransactionDeliversItsBytes : configOK (box [] idle).cfg = true ∧ (box [] idle).ssrEn = true := by
  decide

theorem witness_RequestWrite : (box calm idle).chans[(2 : BitVec 2).toNat]? = some (chan false 19 19 false 9 126) ∧
    (∃ c, State.reset.chans[(0 : BitVec 2).toNat]? = some c) := ⟨by decide, _, rfl⟩

theorem witness_ReceiveTake : (0x250 : RegData).toNat =
      (box [] (full 0x50 .received)).ssr.rxData.toNat + 256 * rxStatusNum (box [] (full 0x50 .received)).ssr.rxStatus ∧
    (full 0x50 .received).rxStatus = .received ∧
    (0x122 : RegData).toNat = acking.rxData.toNat + 256 * rxStatusNum acking.rxStatus ∧
    acking.rxStatus ≠ .received := by decide

theorem witness_RegisterMap : configOK (box calm idle).cfg = true ∧
    (box calm idle).chans.length = (box calm idle).cfg.nCh ∧
    (∀ n ∈ [0, 1, 2, 3, 4, 5, 6, 16, 18, 20, 22, 24, 26, 28, 30], holdsRegister 3 n) ∧
    (box calm idle).chans[30 % 4]? = some (chan false 19 19 false 9 126) := by decide

theorem witness_HostPortAccess : recordOK (fed State.reset (.hostWrite 18 100)).cfg = true ∧
    (fed State.reset (.hostWrite 18 100)).ports = [] ∧
    (18 : RegNum).toNat = 16 + (2 : BitVec 2).toNat ∧ (2 : BitVec 2).toNat < 3 ∧
    (100 : RegData).toNat = (100 : Byte).toNat ∧ (6 : RegNum).toNat ≤ 6 ∧ (20 ≤ 30 ∧ 30 < 32 ∧ 30 % 4 < 3) ∧
    ¬ holdsRegister 3 7 ∧ ¬ holdsRegister 3 19 ∧ ¬ holdsRegister 3 32 := by decide

/-- A host in the middle of `receive_packet(buf, 2)`. -/
def polling (r : Ssr) : State := { fed (box calm r) .hostStep with host := ⟨false, true, 2, [1]⟩ }

theorem witness_ReceivePacketPolls : recordOK (polling (full 0x50 .received)).cfg = true ∧
    (polling (full 0x50 .received)).ports = [] ∧ (polling (full 0x50 .received)).trace = [.hostStep] ∧
    (polling (full 0x50 .received)).host.running = true ∧
    (polling (full 0x50 .received)).ssr.rxStatus = .received ∧ (polling idle).ssr.rxStatus = .terminated ∧
    (polling acking).ssr.rxStatus = .pending ∧
    (0x250 : RegData).toNat = (full 0x50 .received).rxData.toNat + 256 * rxStatusNum .received ∧
    (fed (box calm idle) (.recvPacket 2)).trace = [.recvPacket 2] := by decide

theorem witness_ConsumerCallsReceive : recordOK (fed (box calm idle) .consumer).cfg = true ∧
    (fed (box calm idle) .consumer).ports = [] ∧ (fed (box calm idle) .consumer).trace = [.consumer] := by decide

theorem witness_PacketLayoutRequired : configOK { Config.ref with pktSize := 1 } = true ∧
    configOK { Config.ref with pktSize := 3 } = true ∧ configOK Config.ref = true ∧ Config.ref.pktSize = 2 := by decide

/-- The consumer with this packet. -/
def consuming (buf : List Byte) : State := { fed (box calm idle) .hostStep with host := ⟨true, false, 2, buf⟩ }

theorem witness_ConsumerAppliesPackets : recordOK (consuming [2, 255]).cfg = true ∧
    (consuming [2, 255]).chans.length = (consuming [2, 255]).cfg.nCh ∧
    (consuming [2, 255]).ports = [] ∧ (consuming [2, 255]).trace = [.hostStep] ∧
    (consuming [2, 255]).host.consumer = true ∧ (consuming [2, 255]).host.running = false ∧
    (consuming [2, 255]).host.buf = [2, 255] ∧ (consuming [3, 50]).host.buf = [3, 50] ∧ 3 ≤ (3 : Byte).toNat ∧
    (consuming [2, 255]).chans[(2 : Byte).toNat]? = some (chan false 19 19 false 9 126) := by decide

theorem witness_ConsumerDropsShortPackets : recordOK (consuming [1]).cfg = true ∧ (consuming [1]).ports = [] ∧ (consuming [1]).trace = [.hostStep] ∧ (consuming [1]).host.consumer = true ∧
    (consuming [1]).host.running = false ∧ (consuming [1]).host.buf.length < 2 ∧
    (consuming []).host.buf.length < 2 := by decide

theorem witness_BootReachesTheLowerRail : configOK State.reset.cfg = true ∧
    configOK ({ State.reset with cfg := { Config.ref with nCh := 1, minPct := 1 } } : State).cfg = true := by decide

/-- The lines of the rows of 30_encoding.md R96, one front end per row. -/
theorem witness_FrontEndRows : recordOK ({ box calm idle with ports := [.rst] } : State).cfg = true ∧
    ({ box calm idle with ports := [.rst] } : State).ports = [.rst] ∧
    (lines false true true false).zcPrev = false ∧ (lines true true true false).zcPrev = true ∧
    Config.ref.zcEdge ≠ .falling ∧ ({ Config.ref with zcEdge := .falling } : Config).zcEdge ≠ .rising ∧
    (lines false false true false).sclPrev = false ∧
    ((lines false true false true).sclPrev = true ∧ (lines false true false true).startPending = true) ∧
    ((lines false true true false).sclPrev = true ∧ (lines false true true false).startPending = false) ∧
    ((lines false true true false).sdaPrev = true ∧ (lines false true true false).scl = true) ∧
    ((lines false true false true).sdaPrev = false ∧ (lines false true false true).startPending = true) ∧
    ((lines false true false false).sdaPrev = false ∧ (lines false true false false).startPending = false) ∧
    (lines false false true false).scl = false := by decide

/-- A sample of all five ports, with both serial lines as they were, with one changed and with both. -/
theorem witness_SampleBecomesItsChanges :
    recordOK (fed (box calm idle) (.sample ⟨true, true, true, false, true⟩)).cfg = true ∧
    (fed (box calm idle) (.sample ⟨true, true, true, false, true⟩)).ports = [] ∧
    (fed (box calm idle) (.sample ⟨true, true, true, false, true⟩)).trace =
      [.sample ⟨true, true, true, false, true⟩] ∧
    (⟨true, true, true, false, true⟩ : Sample).sdaIn = (box calm idle).front.sdaPrev ∧
    (⟨false, false, false, false, false⟩ : Sample).scl ≠ (box calm idle).front.sclPrev ∧
    (⟨false, false, false, false, false⟩ : Sample).sdaIn ≠ (box calm idle).front.sdaPrev := by decide

theorem witness_EveryOrderCanOccur : recordOK (fed (box calm idle) (.sample ⟨false, true, true, true, true⟩)).cfg = true ∧
    (fed (box calm idle) (.sample ⟨false, true, true, true, true⟩)).ports = [] ∧
    (⟨false, true, true, true, true⟩ : Sample).scl = (box calm idle).front.sclPrev ∧
    sampleEvents (box calm idle).front ⟨false, true, true, true, true⟩ = [.tick, .zcIn true] ∧
    arrange [PortEvent.tick, .zcIn true] 0 = [.tick, .zcIn true] ∧
    arrange [PortEvent.tick, .zcIn true] 1 = [.zcIn true, .tick] := by decide

theorem witness_DisabledEventsAreIgnored : sourceEnabled State.reset .zeroCross = false ∧
    sourceEnabled State.reset (.compareMatch 2) = false ∧ (2 : BitVec 2).toNat < State.reset.chans.length ∧
    sourceEnabled State.reset .serialStart = false ∧ sourceEnabled (box calm idle) .serialOverflow = false := by decide

theorem witness_NothingServedBeforeInit : State.reset.zcEn = false ∧ State.reset.ssrEn = false ∧
    (∀ c ∈ State.reset.chans, c.cmEn = false) ∧ (2 : BitVec 2).toNat < State.reset.chans.length := by decide

theorem witness_OnlyOwnersWrite : (∃ t, exec (.reqwr 1 80) (box calm idle) = .next t) ∧
    mayWrite (.reqwr 1 80) .applied = false := ⟨⟨_, rfl⟩, by decide⟩

theorem witness_ParametersNeverChange : ∃ t, step (fed State.reset (.code (.evt 0x0000))) = .next t := ⟨_, rfl⟩

theorem witness_AbsentChannelsAndRegistersStop : (box calm idle).chans.length ≤ (3 : BitVec 2).toNat ∧
    ¬ holdsRegister (box calm idle).cfg.nCh 7 := by decide

theorem witness_ChansInv : ChansInv (box calm idle) := by
  refine ⟨by decide, ?_⟩
  intro ch c h
  match ch with
  | 0 => cases h; exact ⟨by decide, by decide, by decide, by decide, by decide⟩
  | 1 => cases h; exact ⟨by decide, by decide, by decide, by decide, by decide⟩
  | 2 => cases h; exact ⟨by decide, by decide, by decide, by decide, by decide⟩
  | n + 3 => cases h

theorem witness_StepKeepsTheChannels : ChansInv (fed (box calm idle) (.code (.evt 0x3000))) ∧
    ∃ t, step (fed (box calm idle) (.code (.evt 0x3000))) = .next t :=
  ⟨⟨witness_ChansInv.1, witness_ChansInv.2⟩, _, rfl⟩

theorem witness_StepKeepsTheReceiver : SsrInv (fed (box calm acking) (.code (.ack1 false))).ssr ∧
    ∃ t, step (fed (box calm acking) (.code (.ack1 false))) = .next t :=
  ⟨⟨by decide, by decide, by decide, by decide⟩, _, rfl⟩

theorem witness_StepKeepsTheFrontEnd :
    FrontInv { box calm idle with front := lines false true false true, ports := [.scl false] } ∧
    ∃ t, step { box calm idle with front := lines false true false true, ports := [.scl false] } = .next t :=
  ⟨⟨rfl, rfl, rfl, fun _ => ⟨rfl, rfl, rfl⟩⟩, _, rfl⟩

theorem witness_ResetMeetsTheInvariants : configOK Config.ref = true ∧ configOK (wide .saturate) = true := by decide

end Sys2Proof.Tests
end

section
/-! The step and the parameter record (spec 00_scope.md R7 to R9, R14, R15): one equation per way a step begins, the
frame of the record over ports and inputs, and `ConfigOK` clause by clause. -/

namespace Sys2Proof.Machine

/-- A record the model does not run is refused by the step (00_scope.md R8). -/
theorem step_refused_of_not_recordOK {s : State} (h : recordOK s.cfg ≠ true) : ∃ r, step s = .refused r := by
  have hr : configRefusal s.cfg ≠ none := fun hn => h ((configRefusal_eq_none_iff _).1 hn)
  obtain ⟨r, hr⟩ := Option.ne_none_iff_exists'.1 hr
  exact ⟨r, by simp only [step, hr]⟩

/-- With no port change waiting, the step serves the next input (00_scope.md R14). -/
theorem step_eq_serveInput {s : State} {x : Input} {rest : List Input} (hr : recordOK s.cfg = true)
    (hp : s.ports = []) (ht : s.trace = x :: rest) : step s = serveInput x s.pos (popInput s rest) := by
  simp only [step, (configRefusal_eq_none_iff _).2 hr, hp, ht]

/-- With no port change waiting and no input left, the step is the fault that ends the run (00_scope.md R15). -/
theorem step_eq_traceEnded {s : State} (hr : recordOK s.cfg = true) (hp : s.ports = []) (ht : s.trace = []) :
    step s = .fault .traceEnded := by
  simp only [step, (configRefusal_eq_none_iff _).2 hr, hp, ht]

/-- A code that decodes runs as its instruction (30_encoding.md R88). -/
theorem serveCode_of_decode_ok {s : State} {c : Code} {i : Instr} (h : decode s.cfg c = .ok i) (position : Nat) :
    serveCode c position s = exec i s := by
  simp only [serveCode, h]

/-- Serving a port change keeps the parameter record (30_encoding.md R96; 10_state.md R35). -/
theorem servePort_cfg {e : PortEvent} {s t : State} (h : servePort e s = .next t) : t.cfg = s.cfg := by
  rcases servePort_next h with ⟨i, _, hi⟩ | ⟨_, rfl⟩
  · exact (exec_cfg hi).trans (withFront_cfg _ _)
  · exact withFront_cfg _ _

/-- No input changes the parameter record (00_scope.md R13; 10_state.md R35). -/
theorem serveInput_cfg {x : Input} {n : Nat} {s t : State} (h : serveInput x n s = .next t) : t.cfg = s.cfg := by
  cases serveInput_next h with
  | op i hi => exact exec_cfg hi
  | request ch v hp hl ht => rw [ht, withHost_cfg, withChans_cfg]
  | poll hp ht => rw [ht, withHost_cfg, (sameButSsr_pollLatch s).cfg]
  | none hs => exact hs.cfg

/-- No compare value overflows exactly when, under `refuse`, `DELAY(0)` fits every channel (00_scope.md R8). -/
theorem overflowChannel_eq_none_iff (cfg : Config) :
    overflowChannel cfg = none ↔ (cfg.ovf = .refuse → ∀ ch < cfg.nCh, delay cfg 0 < 2 ^ cfg.width ch) := by
  unfold overflowChannel
  cases cfg.ovf with
  | refuse => simp [List.find?_eq_none]
  | truncate | saturate => simp

/-- `ConfigOK` is its ranges and the fit of the compare value (00_scope.md R8). -/
theorem configOK_iff (cfg : Config) :
    configOK cfg = true ↔ rangesOK cfg = true ∧
      (cfg.ovf = .refuse → ∀ ch < cfg.nCh, delay cfg 0 < 2 ^ cfg.width ch) := by
  rw [configOK, Bool.and_eq_true, Option.isNone_iff_eq_none, overflowChannel_eq_none_iff]

/-- The ranges of REF with the clock of 00_scope.md R9 hold where the three widths are legal. -/
theorem rangesOK_refWith_iff (ws : List Nat) :
    rangesOK (Config.refWith 8000000 ws) = true ↔ ∀ ch < 3, ws.getD ch 0 = 8 ∨ ws.getD ch 0 = 16 := by
  simp [rangesOK_iff, Config.refWith, Config.ref, Config.width]

/-- 1250, `DELAY(0)` at 8 MHz, fits 16 bits and not 8, so every width must be 16 (00_scope.md R9). -/
theorem configOK_refWith_iff (ws : List Nat) :
    configOK (Config.refWith 8000000 ws) = true ↔ ∀ ch < 3, ws.getD ch 0 = 16 := by
  rw [configOK_iff, rangesOK_refWith_iff, delay_refWith]
  change (_ ∧ (OvfPolicy.refuse = .refuse → ∀ ch < 3, 1250 < 2 ^ ws.getD ch 0)) ↔ _
  constructor
  · rintro ⟨hw, hfit⟩ ch hch
    rcases hw ch hch with h8 | h16
    · have hlt := hfit rfl ch hch
      rw [h8] at hlt
      exact absurd hlt (by decide)
    · exact h16
  · intro h
    refine ⟨fun ch hch => .inr (h ch hch), fun _ ch hch => ?_⟩
    rw [h ch hch]
    decide

end Sys2Proof.Machine

namespace Sys2Proof.Scope

open Sys2Proof.Machine

/-- Settles O53: the port changes and the inputs each keep the record, and a step is one of the two. -/
theorem parametersNeverChange : Obligations.ParametersNeverChange := by
  intro s t h
  obtain ⟨_, ⟨e, rest, _, hport⟩ | ⟨_, x, rest, _, hinput⟩⟩ := step_next h
  · exact (servePort_cfg hport).trans (popPort_cfg _ _)
  · exact (serveInput_cfg hinput).trans (popInput_cfg _ _)

/-- Settles O6: the step serves the code on the popped state, whose record decodes it the same. -/
theorem stepRunsDecoded : Obligations.StepRunsDecoded := by
  intro s c rest i hr hp ht hd
  rw [step_eq_serveInput hr hp ht]
  exact serveCode_of_decode_ok (s := popInput s rest) hd s.pos

/-- Settles O7: the ranges and the fit of the compare value, and every record not well formed is none the model
runs. -/
theorem illFormedRecordsRefused : Obligations.IllFormedRecordsRefused := by
  refine ⟨fun cfg => ?_, fun s h => step_refused_of_not_recordOK fun hr => ?_⟩
  · rw [configOK_iff, rangesOK_iff]
    simp only [and_assoc]
  · exact absurd ((recordOK_iff _).1 hr).1 (by simp [h])

/-- Settles O8: with nothing to serve, only the fault is left. -/
theorem runEndsWithTrace : Obligations.RunEndsWithTrace :=
  fun _ => step_eq_traceEnded

/-- Settles O12: the widths by `configOK_refWith_iff`, the table of R128 by evaluation. -/
theorem referenceDelays : Obligations.ReferenceDelays :=
  ⟨by decide, configOK_refWith_iff, by decide, by decide, by decide⟩

end Sys2Proof.Scope
end

section
/-! What a state change can do to each channel, said once for all instructions (spec 10_state.md R42), and the
invariant of the channels over it (R26, R44). -/

namespace Sys2Proof.Machine

/-- The two states have the same channels, each moved as `R` says of its number. -/
structure ChansMoved (R : Nat → Chan → Chan → Prop) (s t : State) : Prop where
  length_eq : t.chans.length = s.chans.length
  each : ∀ ch d, t.chans[ch]? = some d → ∃ c, s.chans[ch]? = some c ∧ R ch c d

theorem chansMoved_of_mapIdx {R : Nat → Chan → Chan → Prop} {s t : State} {f : Nat → Chan → Chan}
    (ht : t.chans = s.chans.mapIdx f) (hf : ∀ ch c, R ch c (f ch c)) : ChansMoved R s t where
  length_eq := by rw [ht, List.length_mapIdx]
  each ch d hd := by
    rw [ht, List.getElem?_mapIdx, Option.map_eq_some_iff] at hd
    obtain ⟨c, hc, rfl⟩ := hd
    exact ⟨c, hc, hf ch c⟩

theorem chansMoved_of_map {R : Nat → Chan → Chan → Prop} {s t : State} {f : Chan → Chan}
    (ht : t.chans = s.chans.map f) (hf : ∀ ch c, R ch c (f c)) : ChansMoved R s t :=
  chansMoved_of_mapIdx (f := fun _ => f) (ht.trans (List.ext_getElem? fun j => by simp)) hf

theorem chansMoved_of_modify {R : Nat → Chan → Chan → Prop} {s t : State} {k : Nat} {f : Chan → Chan}
    (ht : t.chans = s.chans.modify k f) (hf : ∀ c, R k c (f c)) (hid : ∀ ch c, R ch c c) : ChansMoved R s t := by
  refine chansMoved_of_mapIdx (f := fun j c => if k = j then f c else c) (ht.trans (List.ext_getElem? fun j => ?_))
    fun j c => ?_
  · rw [getElem?_modify, List.getElem?_mapIdx]
    split <;> simp
  · split
    · next hk => exact hk ▸ hf c
    · exact hid j c

/-- What an instruction other than `RESET` can do to channel `ch` (10_state.md R42). -/
inductive ChanMove (i : Instr) (s : State) (ch : Nat) (c : Chan) : Chan → Prop where
  | same : ChanMove i s ch c c
  | init (hi : i = .init) : ChanMove i s ch c { c with cmEn := true }
  | cross (hi : i = .zc) (hz : s.zcEn = true) (hp : anyPending s = false) : ChanMove i s ch c (crossChan s.cfg c)
  | tick (hi : i = .tick) : ChanMove i s ch c (tickChan s.cfg ch c)
  | service (k : BitVec 2) (hi : i = .cm k) (hk : k.toNat = ch) : ChanMove i s ch c (serviceChan s.cfg ch c)
  | request (k : BitVec 2) (v : Byte) (hi : i = .reqwr k v) :
      ChanMove i s ch c { c with requested := requestValue v.toNat }

/-- Every instruction but `RESET` moves each channel in one of the six ways. -/
theorem exec_chansMoved {i : Instr} {s t : State} (h : exec i s = .next t) (h0 : i ≠ .reset) :
    ChansMoved (ChanMove i s) s t := by
  cases exec_channelEffect h with
  | reset hi => exact absurd hi h0
  | init hi _ hc => exact chansMoved_of_map hc fun _ _ => .init hi
  | cross hi hz hp ht => subst ht; exact chansMoved_of_map rfl fun _ _ => .cross hi hz hp
  | tick hi ht => subst ht; exact chansMoved_of_mapIdx rfl fun _ _ => .tick hi
  | service k hi _ ht => subst ht; exact chansMoved_of_modify rfl (fun _ => .service k hi rfl) fun _ _ => .same
  | request k v hi _ ht => subst ht; exact chansMoved_of_modify rfl (fun _ => .request k v hi) fun _ _ => .same
  | none _ hc => exact ⟨by rw [hc], fun _ d hd => ⟨d, hc ▸ hd, .same⟩⟩

/-- The write port moves nothing but a request (43_host_consumer.md R173). -/
theorem writeRequest_chansMoved {s t : State} {k v : Nat} (h : writeRequest s k v = .next t) :
    ChansMoved (fun _ c d => d = c ∨ d = { c with requested := requestValue v }) s t := by
  obtain ⟨-, rfl⟩ := writeRequest_next h
  exact chansMoved_of_modify rfl (fun _ => .inr rfl) fun _ _ => .inl rfl

end Sys2Proof.Machine

namespace Sys2Proof.Safety

open Sys2Proof.Machine

/-- A channel after reset keeps its ranges (10_state.md R43). -/
theorem chanInv_atReset {cfg : Config} (hok : configOK cfg = true) {ch : Nat} (hch : ch < cfg.nCh) :
    ChanInv cfg ch (Chan.atReset cfg ch) where
  applied_le := Nat.zero_le _
  requested_le := Nat.zero_le _
  cnt_lt := Nat.two_pow_pos _
  cmp_lt := (cmpReg_toNat hok hch 0).trans_lt (cmpVal_lt hok hch 0)
  cmp_eq := cmpReg_toNat hok hch 0

section
variable {cfg : Config} {ch : Nat} {c : Chan}

theorem ChanInv.enable (h : ChanInv cfg ch c) : ChanInv cfg ch { c with cmEn := true } :=
  ⟨h.applied_le, h.requested_le, h.cnt_lt, h.cmp_lt, h.cmp_eq⟩

theorem ChanInv.cross (h : ChanInv cfg ch c) : ChanInv cfg ch (crossChan cfg c) :=
  ⟨h.applied_le, h.requested_le, Nat.two_pow_pos _, h.cmp_lt, h.cmp_eq⟩

theorem ChanInv.request (h : ChanInv cfg ch c) (v : Nat) :
    ChanInv cfg ch { c with requested := requestValue v } :=
  ⟨h.applied_le, (requestValue_toNat v).trans_le (Nat.min_le_right _ _), h.cnt_lt, h.cmp_lt, h.cmp_eq⟩

theorem ChanInv.count (h : ChanInv cfg ch c) : ChanInv cfg ch (countChan cfg ch c) where
  applied_le := h.applied_le
  requested_le := h.requested_le
  cnt_lt := (Nat.mod_le _ _).trans_lt (Nat.mod_lt _ (Nat.two_pow_pos _))
  cmp_lt := h.cmp_lt
  cmp_eq := h.cmp_eq

/-- A promotion loads the compare value of the brightness it applies (41_phase_timer.md R123; 10_state.md R26). -/
theorem ChanInv.service (hok : configOK cfg = true) (hch : ch < cfg.nCh) (h : ChanInv cfg ch c) :
    ChanInv cfg ch (serviceChan cfg ch c) := by
  cases he : c.cmEn with
  | false => rwa [serviceChan_disabled _ _ _ he]
  | true =>
    have hcmp : (if c.applied = c.requested then c.cmp else cmpReg cfg ch c.requested.toNat).toNat =
        cmpVal cfg ch c.requested.toNat := by
      split
      · next ha => rw [h.cmp_eq, ha]
      · exact cmpReg_toNat hok hch _
    rw [serviceChan_enabled _ _ _ he]
    exact ⟨h.requested_le, h.requested_le, h.cnt_lt, hcmp.trans_lt (cmpVal_lt hok hch _), hcmp⟩

theorem ChanInv.tick (hok : configOK cfg = true) (hch : ch < cfg.nCh) (h : ChanInv cfg ch c) :
    ChanInv cfg ch (tickChan cfg ch c) := by
  rcases tickChan_cases cfg ch c with ht | ⟨_, ht⟩ <;> rw [ht]
  · exact h.count
  · exact h.count.service hok hch

end

/-- Every instruction but `RESET` keeps the ranges of each channel (10_state.md R44, R26). -/
theorem ChanInv.move {i : Instr} {s : State} {ch : Nat} {c d : Chan} (hok : configOK s.cfg = true)
    (hch : ch < s.cfg.nCh) (h : ChanInv s.cfg ch c) (hm : ChanMove i s ch c d) : ChanInv s.cfg ch d := by
  cases hm with
  | same => exact h
  | init => exact h.enable
  | cross => exact h.cross
  | tick => exact h.tick hok hch
  | service => exact h.service hok hch
  | request k v => exact h.request _

/-- Channels that each move by a step that keeps the ranges keep them together. -/
theorem ChansInv.moved {R : Nat → Chan → Chan → Prop} {s t : State} (h : ChansInv s) (hcfg : t.cfg = s.cfg)
    (hm : ChansMoved R s t)
    (hR : ∀ ch c d, ch < s.cfg.nCh → R ch c d → ChanInv s.cfg ch c → ChanInv s.cfg ch d) : ChansInv t where
  length_eq := by rw [hm.length_eq, h.length_eq, hcfg]
  each ch d hd := by
    obtain ⟨c, hc, hcd⟩ := hm.each ch d hd
    obtain ⟨hlt, -⟩ := List.getElem?_eq_some_iff.1 hc
    rw [hcfg]
    exact hR ch c d (h.length_eq ▸ hlt) hcd (h.each ch c hc)

/-- The channels after reset: as many as `N_CH`, each the channel reset gives its number (10_state.md R43). -/
theorem resetBlock_getElem?_chans {s : State} {ch : Nat} {c : Chan} (h : (resetBlock s).chans[ch]? = some c) :
    ch < s.cfg.nCh ∧ c = Chan.atReset s.cfg ch := by
  rw [resetBlock_chans, List.getElem?_map, Option.map_eq_some_iff] at h
  obtain ⟨k, hk, rfl⟩ := h
  obtain ⟨hlt, rfl⟩ := List.getElem?_eq_some_iff.1 hk
  rw [List.length_range] at hlt
  exact ⟨hlt, by rw [List.getElem_range]⟩

theorem chansInv_resetBlock {s : State} (hok : configOK s.cfg = true) : ChansInv (resetBlock s) where
  length_eq := by simp
  each ch c hc := by
    obtain ⟨hlt, rfl⟩ := resetBlock_getElem?_chans hc
    exact chanInv_atReset hok hlt

/-- Every instruction keeps the ranges of the channels (10_state.md R44, R26). -/
theorem ChansInv.exec {i : Instr} {s t : State} (hok : configOK s.cfg = true) (h : ChansInv s)
    (he : exec i s = .next t) : ChansInv t := by
  by_cases h0 : i = .reset
  · subst h0
    cases he
    exact chansInv_resetBlock hok
  · exact h.moved (exec_cfg he) (exec_chansMoved he h0) fun _ _ _ hlt hm hc => hc.move hok hlt hm

theorem ChansInv.writeRequest {s t : State} {ch v : Nat} (h : ChansInv s)
    (hw : writeRequest s ch v = .next t) : ChansInv t := by
  refine h.moved ?_ (writeRequest_chansMoved hw) fun _ _ _ _ hm hc => ?_
  · obtain ⟨-, rfl⟩ := writeRequest_next hw
    rfl
  · obtain rfl | rfl := hm
    · exact hc
    · exact hc.request v

end Sys2Proof.Safety
end

section
/-! What every step keeps, reduced once to what the operations keep (spec 00_scope.md R13, R14), and the
invariant of the channels over it (10_state.md R26, R44). -/

namespace Sys2Proof.Machine

theorem sameBlock_popPort (s : State) (rest : List PortEvent) : SameBlock s (popPort s rest) :=
  ⟨rfl, rfl, rfl, rfl, rfl, rfl⟩

theorem sameBlock_popInput (s : State) (rest : List Input) : SameBlock s (popInput s rest) :=
  ⟨rfl, rfl, rfl, rfl, rfl, rfl⟩

theorem sameBlock_withHost (s : State) (h : HostProc) : SameBlock s (withHost s h) :=
  ⟨rfl, rfl, rfl, rfl, rfl, rfl⟩

/-- A property of the block that every operation, the front end's own move and the write port keep. -/
structure BlockKeeps (P : State → Prop) : Prop where
  same : ∀ {s t}, SameBlock s t → P s → P t
  front : ∀ {s} (e : PortEvent), P s → P (withFront s (portFront s.ssrEn s.front e))
  exec : ∀ {i s t}, configOK s.cfg = true → exec i s = .next t → P s → P t
  request : ∀ {s t ch v}, writeRequest s ch v = .next t → P s → P t

theorem BlockKeeps.servePort {P : State → Prop} (hP : BlockKeeps P) {e : PortEvent} {s t : State}
    (hok : configOK s.cfg = true) (h : servePort e s = .next t) (hs : P s) : P t := by
  rcases servePort_next h with ⟨i, _, hi⟩ | ⟨_, rfl⟩
  · exact hP.exec (s := withFront s (portFront s.ssrEn s.front e)) hok hi (hP.front e hs)
  · exact hP.front e hs

theorem BlockKeeps.serveInput {P : State → Prop} (hP : BlockKeeps P) {x : Input} {n : Nat} {s t : State}
    (hok : configOK s.cfg = true) (h : serveInput x n s = .next t) (hs : P s) : P t := by
  cases serveInput_next h with
  | op i hi => exact hP.exec hok hi hs
  | request ch v hp hl ht =>
    subst ht
    exact hP.same (sameBlock_withHost _ _) (hP.request (if_pos hl) hs)
  | poll hp ht =>
    subst ht
    exact hP.same (sameBlock_withHost _ _) (hP.exec (i := .rxtake) hok rfl hs)
  | none hsame => exact hP.same hsame hs

/-- What the block keeps, every step keeps: a step serves a port change or an input (00_scope.md R14). -/
theorem BlockKeeps.step {P : State → Prop} (hP : BlockKeeps P) {s t : State} (h : step s = .next t) (hs : P s) :
    P t := by
  obtain ⟨hr, ⟨e, rest, _, hport⟩ | ⟨_, x, rest, _, hinput⟩⟩ := step_next h
  · exact hP.servePort (s := popPort s rest) ((recordOK_iff _).1 hr).1 hport (hP.same (sameBlock_popPort _ _) hs)
  · exact hP.serveInput (s := popInput s rest) ((recordOK_iff _).1 hr).1 hinput (hP.same (sameBlock_popInput _ _) hs)

end Sys2Proof.Machine

namespace Sys2Proof.Safety

open Sys2Proof.Machine

theorem blockKeeps_chansInv : BlockKeeps ChansInv where
  same hst h :=
    h.moved hst.cfg (R := fun _ c d => d = c) ⟨by rw [hst.chans], fun _ d hd => ⟨d, hst.chans ▸ hd, rfl⟩⟩
      fun _ _ _ _ hm hc => hm ▸ hc
  front _ h := ⟨h.length_eq, h.each⟩
  exec hok he h := h.exec hok he
  request hw h := h.writeRequest hw

/-- Settles O56: the block keeps the ranges of the channels, and with it every step. -/
theorem stepKeepsTheChannels : Obligations.StepKeepsTheChannels :=
  fun _ _ h hstep => blockKeeps_chansInv.step hstep h

end Sys2Proof.Safety
end

section
/-! The invariants of the receiver (spec 10_state.md R44, R45) and of the front end (R37), over the operations and
over every step, and the block after reset (R43). -/

namespace Sys2Proof.Safety

open Sys2Proof.Machine

section
variable {r : Ssr}

/-- The line is not pulled before the address is acknowledged (10_state.md R45). -/
theorem SsrInv.sdaDrive_eq_false (h : SsrInv r) (hs : r.state ≠ .recvDataWait) : r.sdaDrive = false :=
  Bool.eq_false_iff.2 fun hd => hs (h.ack hd).1

theorem ssrInv_atReset (sr rxData : Byte) : SsrInv (Ssr.atReset sr rxData) :=
  ⟨Nat.zero_le 8, .inr rfl, fun hs => absurd rfl hs, fun hd => Bool.noConfusion hd⟩

theorem SsrInv.start (b : Bool) (r : Ssr) : SsrInv (startSsr b r) :=
  ⟨Nat.zero_le 8, .inr rfl, fun hs => absurd rfl hs, fun hd => Bool.noConfusion hd⟩

theorem SsrInv.rise (b : Bool) (h : SsrInv r) (h8 : r.bitCnt.toNat < 8) : SsrInv (riseSsr b r) :=
  ⟨(Nat.mod_le _ _).trans h8, h.bitTarget_mem, h.status, h.ack⟩

theorem SsrInv.addrMatch (r : Ssr) (hm : r.mode = .counting) : SsrInv (addrMatchSsr r) :=
  ⟨Nat.zero_le 8, .inl rfl, fun _ => by simp [addrMatchSsr], fun _ => ⟨rfl, hm, rfl⟩⟩

theorem SsrInv.addrMismatch (h : SsrInv r) (hs : r.state = .checkAddress) : SsrInv (addrMismatchSsr r) :=
  ⟨Nat.zero_le 8, h.bitTarget_mem, h.status,
    fun hd => Bool.noConfusion ((h.sdaDrive_eq_false (by simp [hs])).symm.trans hd)⟩

theorem SsrInv.waitAbort (r : Ssr) : SsrInv (waitAbortSsr r) :=
  ⟨Nat.zero_le 8, .inr rfl, fun hs => absurd rfl hs, fun hd => Bool.noConfusion hd⟩

theorem SsrInv.waitRelease (hr : r.rxStatus ≠ .terminated) : SsrInv (waitReleaseSsr r) :=
  ⟨Nat.zero_le 8, .inr rfl, fun _ => hr, fun hd => Bool.noConfusion hd⟩

theorem SsrInv.ackData (hm : r.mode = .counting) (hr : r.rxStatus ≠ .terminated) : SsrInv (ackSsr r) :=
  ⟨Nat.zero_le 8, .inl rfl, fun _ => hr, fun _ => ⟨rfl, hm, rfl⟩⟩

/-- A poll takes a byte or nothing, so it ends no reception (43_host_consumer.md R174). -/
theorem SsrInv.take (h : SsrInv r) : SsrInv { r with rxStatus := statusTaken r.rxStatus } := by
  refine ⟨h.bitCnt_le, h.bitTarget_mem, fun hs => ?_, h.ack⟩
  have hr := h.status hs
  change statusTaken r.rxStatus ≠ .terminated
  cases hq : r.rxStatus with
  | terminated => exact absurd hq hr
  | pending | received => simp [statusTaken]

end

/-- A byte boundary of a clocked receiver keeps its invariant, one case per arm (42_serial_receiver.md R146 to
R150). -/
theorem SsrInv.boundary {s : State} (h : SsrInv s.ssr) (hc : clocked s = true) : SsrInv (serveBoundary s).ssr := by
  have hm : s.ssr.mode = .counting := by simp_all [clocked]
  rcases serveBoundary_cases s with ⟨_, _, e⟩ | ⟨hs, _, e⟩ | ⟨_, _, e⟩ | ⟨_, hr, e⟩ | ⟨_, _, e⟩ | ⟨hs, _, e⟩ <;> rw [e]
  · exact .addrMatch _ hm
  · exact h.addrMismatch hs
  · exact .waitAbort _
  · exact .waitRelease hr
  · exact .ackData hm (by simp [latchSsr])
  · exact .ackData hm (h.status (by simp [hs]))

theorem SsrInv.execRise {b : Bool} {s t : State} (h : SsrInv s.ssr) (he : execRise b s = .next t) : SsrInv t.ssr := by
  rcases execRise_next he with ⟨_, rfl⟩ | ⟨_, h8, rfl⟩
  · exact h
  · exact h.rise b h8

theorem SsrInv.execFall {s t : State} (h : SsrInv s.ssr) (he : execFall s = .next t) : SsrInv t.ssr := by
  rcases execFall_next he with rfl | ⟨hc, rfl⟩
  · exact h
  · exact h.boundary hc

theorem SsrInv.clockBits {v : Byte} {k : Nat} {s t : State} (h : SsrInv s.ssr) (he : clockBits v k s = .next t) :
    SsrInv t.ssr :=
  clockBits_induction (P := fun s => SsrInv s.ssr) v (fun _ _ _ => SsrInv.execRise) (fun _ _ => SsrInv.execFall)
    k s t h he

/-- Every instruction keeps the invariant of the receiver (10_state.md R44, R45). -/
theorem SsrInv.exec {i : Instr} {s t : State} (h : SsrInv s.ssr) (he : exec i s = .next t) : SsrInv t.ssr := by
  cases i with
  | reset => cases he; exact ssrInv_atReset _ _
  | init | zc | tick | cm | reqwr => rwa [exec_ssr he (by simp) rfl]
  | start b =>
    rcases execStart_next he with ⟨_, rfl⟩ | ⟨_, rfl⟩
    · exact h
    · exact .start _ _
  | stop =>
    rcases execStop_next he with ⟨_, rfl⟩ | ⟨_, _, rfl⟩
    · exact h
    · exact .start _ _
  | rise b => exact h.execRise he
  | fall => exact h.execFall he
  | bb =>
    rcases execBb_next he with ⟨_, rfl⟩ | ⟨hc, rfl⟩
    · exact h
    · exact h.boundary hc
  | rxtake => cases he; exact h.take
  | rd n =>
    rcases memRead_next he with ⟨_, rfl⟩ | ⟨_, _, _, rfl⟩
    · exact h.take
    · exact h
  | reservedD | reservedE | reservedF => cases he
  | wireAddrMatch | wireAddrMismatch | wireData => exact h.clockBits he
  | wireAck =>
    obtain ⟨u, hu, ht⟩ := andThen_eq_next he
    exact (h.execRise hu).execFall ht

theorem blockKeeps_ssrInv : BlockKeeps fun s => SsrInv s.ssr where
  same hst h := hst.ssr ▸ h
  front _ h := h
  exec _ he h := h.exec he
  request hw h := by
    obtain ⟨-, rfl⟩ := writeRequest_next hw
    exact h

/-- Settles O57: the block keeps the invariant of the receiver, and with it every step. -/
theorem stepKeepsTheReceiver : Obligations.StepKeepsTheReceiver :=
  fun _ _ h hstep => blockKeeps_ssrInv.step hstep h

/-- The front end's invariant rests on the receiver's enable and the front end alone (10_state.md R37). -/
theorem FrontInv.congr {s t : State} (h : FrontInv s) (he : t.ssrEn = s.ssrEn) (hf : t.front = s.front) :
    FrontInv t := by
  refine ⟨?_, ?_, ?_, ?_⟩ <;> rw [hf]
  · exact h.zc_eq
  · exact h.scl_eq
  · exact h.sda_eq
  · exact he ▸ h.pending

/-- A port change moves the line history with its pin, and an edge that resolves a pending start clears it
(30_encoding.md R96). -/
theorem FrontInv.port {s : State} (h : FrontInv s) (e : PortEvent) :
    FrontInv (withFront s (portFront s.ssrEn s.front e)) := by
  obtain ⟨hzc, hscl, hsda, hpend⟩ := h
  cases e with
  | rst | tick => exact ⟨hzc, hscl, hsda, hpend⟩
  | zcIn b => exact ⟨rfl, hscl, hsda, hpend⟩
  | scl b =>
    refine ⟨hzc, rfl, hsda, fun hp => ?_⟩
    simp only [withFront_front, portFront, Bool.and_eq_true] at hp
    obtain ⟨hen, hhigh, hlow⟩ := hpend hp.1
    have hb : b = true := by simpa [hscl, hhigh] using hp.2
    exact ⟨hen, hb, hlow⟩
  | sdaIn b =>
    refine ⟨hzc, hscl, rfl, fun hp => ?_⟩
    simp only [withFront_front, portFront] at hp
    split at hp
    · next hedge =>
      simp only [Bool.and_eq_true, Bool.not_eq_true'] at hedge
      obtain ⟨⟨hhigh, _⟩, hb⟩ := hedge
      have hen : s.ssrEn = true := by
        rcases Bool.or_eq_true_iff.1 hp with hp | hp
        · exact (hpend hp).1
        · exact hp
      exact ⟨hen, hhigh, hb⟩
    · rw [Bool.and_eq_true] at hp
      obtain ⟨hen, hhigh, hlow⟩ := hpend hp.1
      have hb : b = false := by simpa [hhigh, hsda, hlow] using hp.2
      exact ⟨hen, hhigh, hb⟩

theorem FrontInv.resetBlock {s : State} (h : FrontInv s) : FrontInv (resetBlock s) :=
  ⟨h.zc_eq, h.scl_eq, h.sda_eq, fun hp => Bool.noConfusion hp⟩

/-- Every instruction keeps the invariant of the front end: `INIT` loads the history from the pins, `RESET` drops a
pending start, and no other touches it (43_host_consumer.md R170, R171). -/
theorem FrontInv.exec {i : Instr} {s t : State} (h : FrontInv s) (he : exec i s = .next t) : FrontInv t := by
  by_cases h0 : i = .reset
  · subst h0; cases he; exact h.resetBlock
  · by_cases h1 : i = .init
    · subst h1; cases he; exact ⟨rfl, rfl, rfl, fun hp => Bool.noConfusion hp⟩
    · obtain ⟨hf, _, hen⟩ := exec_front he h0 h1
      exact h.congr hen hf

theorem blockKeeps_frontInv : BlockKeeps FrontInv where
  same hst h := h.congr hst.ssrEn hst.front
  front e h := h.port e
  exec _ he h := h.exec he
  request hw h := by
    obtain ⟨-, rfl⟩ := writeRequest_next hw
    exact h.congr rfl rfl

/-- Settles O58: the block keeps the invariant of the front end, and with it every step. -/
theorem stepKeepsTheFrontEnd : Obligations.StepKeepsTheFrontEnd :=
  fun _ _ h hstep => blockKeeps_frontInv.step hstep h

/-- The machine starts as a `RESET` of a block that has drawn no free value leaves it (10_state.md R43; log 4). -/
theorem resetWith_eq_resetBlock (cfg : Config) :
    State.resetWith cfg = resetBlock { State.resetWith cfg with draws := 0 } := rfl

/-- Settles O59: the start state is a reset block, on an idle bus whose history equals its pins. -/
theorem resetMeetsTheInvariants : Obligations.ResetMeetsTheInvariants := by
  intro cfg hok
  refine ⟨?_, ssrInv_atReset _ _, rfl, rfl, rfl, fun hp => Bool.noConfusion hp⟩
  rw [resetWith_eq_resetBlock]
  exact chansInv_resetBlock hok

/-- Settles O13: the start state and the state after `RESET` are both reset blocks, and reset leaves the rest. -/
theorem resetRegisters : Obligations.ResetRegisters := by
  refine ⟨fun cfg hok s hs => ?_, rfl, fun s => ⟨_, rfl, rfl, rfl, rfl, rfl, rfl, rfl, rfl⟩⟩
  have hreset : ∃ u, u.cfg = cfg ∧ s = resetBlock u := by
    obtain rfl | ⟨u, hu, he⟩ := hs
    · exact ⟨_, rfl, resetWith_eq_resetBlock cfg⟩
    · cases he
      exact ⟨u, hu, rfl⟩
  obtain ⟨u, rfl, rfl⟩ := hreset
  refine ⟨rfl, rfl, by simp, fun ch c hc => ?_, rfl, rfl, rfl, rfl, rfl, rfl, rfl, rfl, rfl, rfl⟩
  obtain ⟨hlt, rfl⟩ := resetBlock_getElem?_chans hc
  exact ⟨rfl, rfl, rfl, rfl, rfl, cmpReg_toNat hok hlt 0, rfl⟩

end Sys2Proof.Safety
end

section
/-! Who moves a drive pin (spec 10_state.md R23; 41_phase_timer.md R122, R130), and the writer matrix, channel part by
channel part and register by register (10_state.md R42). -/

namespace Sys2Proof.Machine

/-- The fire decision of a service is to switch on: an enabled channel whose flag is set, its old brightness above
`MIN` (41_phase_timer.md R122). -/
abbrev Fires (cfg : Config) (c : Chan) : Prop := c.zcp = true ∧ c.cmEn = true ∧ cfg.minPct < c.applied.toNat

theorem serviceChan_drive_iff (cfg : Config) (ch : Nat) (c : Chan) :
    (serviceChan cfg ch c).drive = true ↔ c.drive = true ∨ Fires cfg c := by
  cases he : c.cmEn with
  | false => simp [serviceChan_disabled _ _ _ he, Fires, he]
  | true => simp [serviceChan_enabled _ _ _ he, Fires, he]

/-- A tick leaves the pin, or serves the channel, which its count leaves at the same flag and brightness
(41_phase_timer.md R121). -/
theorem tickChan_drive_cases (cfg : Config) (ch : Nat) (c : Chan) :
    (tickChan cfg ch c).drive = c.drive ∨ ((tickChan cfg ch c).drive = true ↔ c.drive = true ∨ Fires cfg c) := by
  rcases tickChan_cases cfg ch c with ht | ⟨_, ht⟩ <;> rw [ht]
  · exact .inl rfl
  · exact .inr (serviceChan_drive_iff cfg ch (countChan cfg ch c))

@[simp] theorem tickChan_requested (cfg : Config) (ch : Nat) (c : Chan) :
    (tickChan cfg ch c).requested = c.requested := by
  rcases tickChan_cases cfg ch c with ht | ⟨_, ht⟩ <;> simp [ht]

@[simp] theorem tickChan_cmEn (cfg : Config) (ch : Nat) (c : Chan) : (tickChan cfg ch c).cmEn = c.cmEn := by
  rcases tickChan_cases cfg ch c with ht | ⟨_, ht⟩ <;> simp [ht]

/-- A channel pin goes on only by a service, given or by a tick (41_phase_timer.md R122, R130). -/
theorem ChanMove.drive_rises {i : Instr} {s : State} {ch : Nat} {c d : Chan} (hm : ChanMove i s ch c d)
    (hoff : c.drive = false) (hon : d.drive = true) :
    ((∃ k : BitVec 2, k.toNat = ch ∧ i = .cm k) ∨ i = .tick) ∧ Fires s.cfg c := by
  have hoff' : ¬ c.drive = true := Bool.eq_false_iff.1 hoff
  cases hm with
  | same | init | request => exact absurd hon hoff'
  | cross =>
    simp only [crossChan] at hon
    split at hon
    · cases hon
    · exact absurd hon hoff'
  | tick hi =>
    refine ⟨.inr hi, ?_⟩
    rcases tickChan_drive_cases s.cfg ch c with he | hiff
    · exact absurd (he ▸ hon) hoff'
    · exact (hiff.1 hon).resolve_left hoff'
  | service k hi hk =>
    exact ⟨.inl ⟨k, hk, hi⟩, ((serviceChan_drive_iff _ _ _).1 hon).resolve_left hoff'⟩

/-- A channel pin goes off only by an accepted zero-cross (40_zero_cross.md R111; 10_state.md R23). -/
theorem ChanMove.drive_falls {i : Instr} {s : State} {ch : Nat} {c d : Chan} (hm : ChanMove i s ch c d)
    (hon : c.drive = true) (hoff : d.drive = false) :
    i = .zc ∧ s.zcEn = true ∧ c.applied.toNat < s.cfg.maxPct ∧ ∀ b ∈ s.chans, b.zcp = false := by
  have hoff' : ¬ d.drive = true := Bool.eq_false_iff.1 hoff
  cases hm with
  | same | init | request => exact absurd hon hoff'
  | cross hi hz hp =>
    refine ⟨hi, hz, ?_, by simpa [anyPending] using hp⟩
    simp only [crossChan] at hoff'
    split at hoff'
    · assumption
    · exact absurd hon hoff'
  | tick =>
    rcases tickChan_drive_cases s.cfg ch c with he | hiff
    · exact absurd (he.trans hon) hoff'
    · exact absurd (hiff.2 (.inl hon)) hoff'
  | service => exact absurd ((serviceChan_drive_iff _ _ _).2 (.inl hon)) hoff'

theorem ChansMoved.imp {R Q : Nat → Chan → Chan → Prop} {s t : State} (h : ChansMoved R s t)
    (hRQ : ∀ ch c d, R ch c d → Q ch c d) : ChansMoved Q s t where
  length_eq := h.length_eq
  each ch d hd := by
    obtain ⟨c, hc, hcd⟩ := h.each ch d hd
    exact ⟨c, hc, hRQ ch c d hcd⟩

/-- A field that no move writes is the same channel by channel. -/
theorem ChansMoved.map_eq {R : Nat → Chan → Chan → Prop} {s t : State} {α : Type} {f : Chan → α}
    (h : ChansMoved R s t) (hf : ∀ ch c d, R ch c d → f d = f c) : t.chans.map f = s.chans.map f := by
  refine List.ext_getElem? fun ch => ?_
  rw [List.getElem?_map, List.getElem?_map]
  cases hd : t.chans[ch]? with
  | none =>
    rw [List.getElem?_eq_none (h.length_eq ▸ List.getElem?_eq_none_iff.1 hd), Option.map_none]
  | some d =>
    obtain ⟨c, hc, hcd⟩ := h.each ch d hd
    rw [hc, Option.map_some, Option.map_some, hf ch c d hcd]

@[simp] theorem serveBoundary_sr (s : State) : (serveBoundary s).ssr.sr = s.ssr.sr := by
  rcases serveBoundary_cases s with ⟨_, _, e⟩ | ⟨_, _, e⟩ | ⟨_, _, e⟩ | ⟨_, _, e⟩ | ⟨_, _, e⟩ | ⟨_, _, e⟩ <;> rw [e] <;>
    rfl

end Sys2Proof.Machine

namespace Sys2Proof.Safety

open Sys2Proof.Machine

/-- Settles O23: one channel's moves, by which its pin goes on or off. -/
theorem driveMovesOnlyByItsRules : Obligations.DriveMovesOnlyByItsRules := by
  intro i s t ch c d he h0 hc hd
  obtain ⟨c', hc', hm⟩ := (exec_chansMoved he h0).each ch d hd
  obtain rfl : c = c' := Option.some.inj (hc.symm.trans hc')
  exact ⟨hm.drive_rises, hm.drive_falls⟩

/-- Two values of one channel hold the same in this row of the writer matrix; the rows of no channel ask nothing. -/
def sameChanPart (c d : Chan) : StatePart → Prop
  | .zcp => d.zcp = c.zcp
  | .applied => d.applied = c.applied
  | .requested => d.requested = c.requested
  | .drive => d.drive = c.drive
  | .cnt => d.cnt = c.cnt
  | .cmp => d.cmp = c.cmp
  | .enables => d.cmEn = c.cmEn
  | .ssrState | .ssrMode | .sr | .bitCnt | .bitTarget | .sdaDrive | .rxData | .rxStatus => True

/-- Two values of the receiver hold the same in this row of the writer matrix; the other rows ask nothing. -/
def sameSsrPart (r q : Ssr) : StatePart → Prop
  | .zcp | .applied | .requested | .drive | .cnt | .cmp | .enables => True
  | .ssrState => q.state = r.state
  | .ssrMode => q.mode = r.mode
  | .sr => q.sr = r.sr
  | .bitCnt => q.bitCnt = r.bitCnt
  | .bitTarget => q.bitTarget = r.bitTarget
  | .sdaDrive => q.sdaDrive = r.sdaDrive
  | .rxData => q.rxData = r.rxData
  | .rxStatus => q.rxStatus = r.rxStatus

theorem sameChanPart_refl (c : Chan) (p : StatePart) : sameChanPart c c p := by
  cases p <;> simp [sameChanPart]

theorem sameSsrPart_refl (r : Ssr) (p : StatePart) : sameSsrPart r r p := by
  cases p <;> simp [sameSsrPart]

/-- A row of the matrix is a part of the channels, of the receiver, or the enables. -/
theorem samePart_of {s t : State} {p : StatePart} (hen : p = .enables → t.zcEn = s.zcEn ∧ t.ssrEn = s.ssrEn)
    (hch : ChansMoved (fun _ c d => sameChanPart c d p) s t) (hssr : sameSsrPart s.ssr t.ssr p) :
    samePart s t p := by
  cases p with
  | zcp | applied | requested | drive | cnt | cmp => exact hch.map_eq fun _ _ _ h => h
  | enables => exact ⟨(hen rfl).1, (hen rfl).2, hch.map_eq fun _ _ _ h => h⟩
  | ssrState | ssrMode | sr | bitCnt | bitTarget | sdaDrive | rxData | rxStatus => exact hssr

/-- A move of a channel writes only what the matrix gives its instruction (10_state.md R42). -/
theorem sameChanPart_of_move {i : Instr} {s : State} {ch : Nat} {c d : Chan} {p : StatePart}
    (hm : ChanMove i s ch c d) (hw : mayWrite i p = false) : sameChanPart c d p := by
  cases hm with
  | same => exact sameChanPart_refl c p
  | init hi | cross hi | tick hi | service _ hi | request _ _ hi =>
    subst hi
    cases p <;> simp_all [mayWrite, sameChanPart, crossChan]

/-- A start-condition service leaves `sr` and `rx_data` (10_state.md R42). -/
theorem sameSsrPart_startSsr {p : StatePart} (hw : mayWrite .stop p = false) (b : Bool) (r : Ssr) :
    sameSsrPart r (startSsr b r) p := by
  cases p <;> simp_all [mayWrite, sameSsrPart, startSsr]

/-- A byte boundary leaves `sr` (10_state.md R42). -/
theorem sameSsrPart_serveBoundary {p : StatePart} (hw : mayWrite .bb p = false) (s : State) :
    sameSsrPart s.ssr (serveBoundary s).ssr p := by
  cases p <;> simp_all [mayWrite, sameSsrPart]

/-- A rising edge leaves all of the receiver but `sr` and `bit_cnt` (10_state.md R42). -/
theorem sameSsrPart_riseSsr {b : Bool} {p : StatePart} (hw : mayWrite (.rise b) p = false) (r : Ssr) :
    sameSsrPart r (riseSsr b r) p := by
  cases p <;> simp_all [mayWrite, sameSsrPart, riseSsr]

/-- A poll leaves all of the receiver but the status (10_state.md R42). -/
theorem sameSsrPart_pollLatch {p : StatePart} (hw : mayWrite .rxtake p = false) (s : State) :
    sameSsrPart s.ssr (pollLatch s).ssr p := by
  cases p <;> simp_all [mayWrite, sameSsrPart, pollLatch, takeByte]

/-- An instruction writes only what the matrix gives it of the receiver (10_state.md R42). -/
theorem sameSsrPart_of_exec {i : Instr} {s t : State} {p : StatePart} (he : exec i s = .next t)
    (hw : mayWrite i p = false) : sameSsrPart s.ssr t.ssr p := by
  cases i with
  | reset => cases hw
  | init | zc | tick | cm | reqwr => rw [exec_ssr he (by simp) rfl]; exact sameSsrPart_refl _ _
  | start b =>
    rcases execStart_next he with ⟨_, rfl⟩ | ⟨_, rfl⟩
    · exact sameSsrPart_refl _ _
    · exact sameSsrPart_startSsr hw _ _
  | stop =>
    rcases execStop_next he with ⟨_, rfl⟩ | ⟨_, _, rfl⟩
    · exact sameSsrPart_refl _ _
    · exact sameSsrPart_startSsr hw _ _
  | rise b =>
    rcases execRise_next he with ⟨_, rfl⟩ | ⟨_, _, rfl⟩
    · exact sameSsrPart_refl _ _
    · exact sameSsrPart_riseSsr hw _
  | fall =>
    rcases execFall_next he with rfl | ⟨_, rfl⟩
    · exact sameSsrPart_refl _ _
    · exact sameSsrPart_serveBoundary hw _
  | bb =>
    rcases execBb_next he with ⟨_, rfl⟩ | ⟨_, rfl⟩
    · exact sameSsrPart_refl _ _
    · exact sameSsrPart_serveBoundary hw _
  | rxtake => cases he; exact sameSsrPart_pollLatch hw _
  | rd n =>
    rcases memRead_next he with ⟨rfl, rfl⟩ | ⟨_, _, _, rfl⟩
    · exact sameSsrPart_pollLatch hw _
    · exact sameSsrPart_refl _ _
  | reservedD | reservedE | reservedF => cases he
  | wireAddrMatch | wireAddrMismatch | wireData | wireAck => cases p <;> simp_all [mayWrite, sameSsrPart]

/-- Settles O52: the enables move at `RESET` and `INIT` alone, the channels and the receiver as the matrix says. -/
theorem onlyOwnersWrite : Obligations.OnlyOwnersWrite := by
  intro i s t p he hw
  have h0 : i ≠ .reset := by rintro rfl; cases hw
  refine samePart_of (fun hp => ?_) ((exec_chansMoved he h0).imp fun _ _ _ hm => sameChanPart_of_move hm hw)
    (sameSsrPart_of_exec he hw)
  subst hp
  have h1 : i ≠ .init := by rintro rfl; cases hw
  exact (exec_front he h0 h1).2

end Sys2Proof.Safety
end

section
/-! The host register space (spec 10_state.md R41; 20_memory.md R61): which register a number names, the words of the
map bit by bit, and the reads and writes of the host port. -/

namespace Sys2Proof.Machine

open Sys2Proof.Safety

theorem hostReg_eq_channelReg (nCh : Nat) {n : RegNum} (h : 16 ≤ n.toNat) :
    hostReg nCh n = channelReg nCh n.toNat := by
  unfold hostReg
  split
  iterate 7 · omega
  · rfl

section
variable {nCh : Nat} {n : RegNum}

theorem hostReg_eq_reqDim (h : n.toNat / 4 = 4) (hc : n.toNat % 4 < nCh) :
    hostReg nCh n = some (.reqDim (n.toNat % 4)) := by
  rw [hostReg_eq_channelReg _ (by omega), channelReg, if_pos hc, h]
  rfl

theorem hostReg_eq_appDim (h : n.toNat / 4 = 5) (hc : n.toNat % 4 < nCh) :
    hostReg nCh n = some (.appDim (n.toNat % 4)) := by
  rw [hostReg_eq_channelReg _ (by omega), channelReg, if_pos hc, h]
  rfl

theorem hostReg_eq_cmp (h : n.toNat / 4 = 6) (hc : n.toNat % 4 < nCh) :
    hostReg nCh n = some (.cmp (n.toNat % 4)) := by
  rw [hostReg_eq_channelReg _ (by omega), channelReg, if_pos hc, h]
  rfl

theorem hostReg_eq_cnt (h : n.toNat / 4 = 7) (hc : n.toNat % 4 < nCh) :
    hostReg nCh n = some (.cnt (n.toNat % 4)) := by
  rw [hostReg_eq_channelReg _ (by omega), channelReg, if_pos hc, h]
  rfl

/-- A number up to 6 holds a register of the block, which is read-only and has a value in every state
(10_state.md R41). -/
theorem hostReg_of_le_six (nCh : Nat) (h : n.toNat ≤ 6) :
    ∃ r, hostReg nCh n = some r ∧ (∀ ch, r ≠ .reqDim ch) ∧ ∀ s, (regValue s r).isSome = true := by
  unfold hostReg
  split
  iterate 7 · exact ⟨_, rfl, nofun, fun _ => rfl⟩
  · next h0 h1 h2 h3 h4 h5 h6 =>
    simp only [imp_false] at h0 h1 h2 h3 h4 h5 h6
    omega

/-- The numbers that hold a read-only register: those of the block, and the channels' but `REQ_DIM`
(10_state.md R41). -/
theorem hostReg_readOnly (h : n.toNat ≤ 6 ∨ (20 ≤ n.toNat ∧ n.toNat < 32 ∧ n.toNat % 4 < nCh)) :
    ∃ r, hostReg nCh n = some r ∧ ∀ ch, r ≠ .reqDim ch := by
  obtain hlow | ⟨hge, hlt, hc⟩ := h
  · obtain ⟨r, hr, hne, -⟩ := hostReg_of_le_six nCh hlow
    exact ⟨r, hr, hne⟩
  · obtain h5 | h6 | h7 : n.toNat / 4 = 5 ∨ n.toNat / 4 = 6 ∨ n.toNat / 4 = 7 := by omega
    · exact ⟨_, hostReg_eq_appDim h5 hc, nofun⟩
    · exact ⟨_, hostReg_eq_cmp h6 hc, nofun⟩
    · exact ⟨_, hostReg_eq_cnt h7 hc, nofun⟩

/-- A number that holds a register under `N_CH` channels has a value in a state that has them (20_memory.md R61). -/
theorem readValue_isSome {s : State} (hlen : s.chans.length = s.cfg.nCh) (h : holdsRegister s.cfg.nCh n.toNat) :
    (readValue s n).isSome = true := by
  rw [readValue, Option.isSome_map]
  obtain hlow | ⟨hge, hlt, hc⟩ := h
  · obtain ⟨r, hr, -, hval⟩ := hostReg_of_le_six s.cfg.nCh hlow
    rw [hr]
    exact hval s
  · have hget : (s.chans[n.toNat % 4]?).isSome = true := by simpa [hlen] using hc
    obtain h4 | h5 | h6 | h7 : n.toNat / 4 = 4 ∨ n.toNat / 4 = 5 ∨ n.toNat / 4 = 6 ∨ n.toNat / 4 = 7 := by omega
    · simpa [hostReg_eq_reqDim h4 hc, regValue] using hget
    · simpa [hostReg_eq_appDim h5 hc, regValue] using hget
    · simpa [hostReg_eq_cmp h6 hc, regValue] using hget
    · simpa [hostReg_eq_cnt h7 hc, regValue] using hget

/-- A number that holds no register names none (10_state.md R41). -/
theorem hostReg_eq_none (h : ¬ holdsRegister nCh n.toNat) : hostReg nCh n = none := by
  rwa [← Option.not_isSome_iff_eq_none, hostReg_isSome_iff]

/-- A value read is the word of the register its number names, where that fits 16 bits (10_state.md R41). -/
theorem readValue_toNat {s : State} {v : RegData} {r : HostReg} {w : Nat} (h : readValue s n = some v)
    (hr : hostReg s.cfg.nCh n = some r) (hw : regValue s r = some w) (hlt : w < 65536) : v.toNat = w := by
  obtain rfl : BitVec.ofNat 16 w = v := by simpa [readValue, hr, hw] using h
  rw [BitVec.toNat_ofNat, Nat.mod_eq_of_lt hlt]

end

/-! The words of the map: the bits of the channels at 0, then the words they stand in. -/

theorem chanBits_shift (cs : List Chan) (f : Chan → Bool) (lo : Nat) :
    chanBits cs f lo = 2 ^ lo * chanBits cs f 0 := by
  induction cs generalizing lo with
  | nil => rfl
  | cons c cs ih => rw [chanBits, chanBits, ih (lo + 1), ih (0 + 1)]; ring

theorem chanBits_cons (c : Chan) (cs : List Chan) (f : Chan → Bool) :
    chanBits (c :: cs) f 0 = 2 ^ 1 * chanBits cs f 0 + (f c).toNat := by
  rw [chanBits, chanBits_shift]; ring

theorem chanBits_lt (cs : List Chan) (f : Chan → Bool) : chanBits cs f 0 < 2 ^ cs.length := by
  induction cs with
  | nil => exact Nat.one_pos
  | cons c cs ih =>
    have hb := (f c).toNat_lt
    rw [chanBits_cons, List.length_cons, Nat.pow_succ]
    omega

/-- A bit of a channel shows where its number stands; a channel that does not exist shows 0 (10_state.md R41). -/
theorem chanBits_testBit (cs : List Chan) (f : Chan → Bool) (i : Nat) :
    (chanBits cs f 0).testBit i = (cs[i]?.map f).getD false := by
  induction cs generalizing i with
  | nil => simp [chanBits]
  | cons c cs ih =>
    rw [chanBits_cons, Nat.testBit_two_pow_mul_add _ (f c).toNat_lt]
    cases i with
    | zero => cases hf : f c <;> simp [hf]
    | succ i => simpa using ih i

section
variable {s : State}

theorem ctrlWord_eq (s : State) :
    ctrlWord s = 2 ^ 1 * (2 ^ 1 * chanBits s.chans Chan.cmEn 0 + s.ssrEn.toNat) + s.zcEn.toNat := by
  rw [ctrlWord, chanBits_shift]
  ring

theorem flagsWord_eq (s : State) :
    flagsWord s =
      2 ^ 3 * (2 ^ 3 * s.ssr.sdaDrive.toNat + chanBits s.chans Chan.drive 0) + chanBits s.chans Chan.zcp 0 := by
  rw [flagsWord, chanBits_shift s.chans Chan.drive]
  ring

/-- At most three channels show their bits in at most three bits (10_state.md R41). -/
theorem chanBits_lt_eight (hlen : s.chans.length ≤ 3) (f : Chan → Bool) : chanBits s.chans f 0 < 2 ^ 3 :=
  (chanBits_lt _ _).trans_le (Nat.pow_le_pow_right (by decide) hlen)

theorem ctrlWord_lt (hlen : s.chans.length ≤ 3) : ctrlWord s < 65536 := by
  have hcm := chanBits_lt_eight hlen Chan.cmEn
  have hssr := s.ssrEn.toNat_lt
  have hzc := s.zcEn.toNat_lt
  rw [ctrlWord_eq]
  omega

theorem flagsWord_lt (hlen : s.chans.length ≤ 3) : flagsWord s < 65536 := by
  have hzcp := chanBits_lt_eight hlen Chan.zcp
  have hdrive := chanBits_lt_eight hlen Chan.drive
  have hsda := s.ssr.sdaDrive.toNat_lt
  rw [flagsWord_eq]
  omega

/-- `CTRL` bit by bit (10_state.md R41). -/
theorem ctrlWord_testBit (hlen : s.chans.length ≤ 3) (i : Nat) :
    (ctrlWord s).testBit i = if i = 0 then s.zcEn else if i = 1 then s.ssrEn
      else if i < 5 then (s.chans[i - 2]?.map Chan.cmEn).getD false else false := by
  rw [ctrlWord_eq, Nat.testBit_two_pow_mul_add _ s.zcEn.toNat_lt, Nat.testBit_two_pow_mul_add _ s.ssrEn.toNat_lt,
    chanBits_testBit, Nat.testBit_bool_toNat, Nat.testBit_bool_toNat]
  obtain rfl | rfl | hi | hi : i = 0 ∨ i = 1 ∨ (2 ≤ i ∧ i < 5) ∨ 5 ≤ i := by omega
  · simp
  · simp
  · rw [if_neg (by omega), if_neg (by omega), if_neg (by omega), if_neg (by omega), if_pos hi.2, Nat.sub_sub]
  · rw [if_neg (by omega), if_neg (by omega), if_neg (by omega), if_neg (by omega), if_neg (by omega),
      List.getElem?_eq_none (by omega)]
    rfl

/-- `FLAGS` bit by bit (10_state.md R41). -/
theorem flagsWord_testBit (hlen : s.chans.length ≤ 3) (i : Nat) :
    (flagsWord s).testBit i = if i < 3 then (s.chans[i]?.map Chan.zcp).getD false
      else if i < 6 then (s.chans[i - 3]?.map Chan.drive).getD false
      else if i = 6 then s.ssr.sdaDrive else false := by
  rw [flagsWord_eq, Nat.testBit_two_pow_mul_add _ (chanBits_lt_eight hlen _),
    Nat.testBit_two_pow_mul_add _ (chanBits_lt_eight hlen _), chanBits_testBit, chanBits_testBit, Nat.testBit_bool_toNat]
  by_cases h3 : i < 3
  · rw [if_pos h3, if_pos h3]
  · by_cases h6 : i < 6
    · rw [if_neg h3, if_neg h3, if_pos (by omega), if_pos h6]
    · rw [if_neg h3, if_neg h3, if_neg (by omega), if_neg h6]
      have hsda : i - 3 - 3 = 0 ↔ i = 6 := by omega
      by_cases h : i = 6 <;> simp [hsda, h]

theorem rxStatusNum_le (r : RxStatus) : rxStatusNum r ≤ 2 := by cases r <;> decide
theorem ssrStateNum_le (x : SsrState) : ssrStateNum x ≤ 2 := by cases x <;> decide
theorem ssrModeNum_le (m : SsrMode) : ssrModeNum m ≤ 1 := by cases m <;> decide

theorem ssrStatWord_lt (s : State) : ssrStatWord s < 65536 := by
  have hr := rxStatusNum_le s.ssr.rxStatus
  have hx := ssrStateNum_le s.ssr.state
  have hm := ssrModeNum_le s.ssr.mode
  unfold ssrStatWord
  omega

theorem ssrCntWord_lt (s : State) : ssrCntWord s < 65536 := by
  have hc := s.ssr.bitCnt.isLt
  have ht := s.ssr.bitTarget.isLt
  unfold ssrCntWord
  omega

end

/-- A read of a register but `RX_TAKE` returns its value and changes nothing (20_memory.md R61). -/
theorem memRead_of_readValue {s : State} {n : RegNum} {v : RegData} (hn : n ≠ 6) (h : readValue s n = some v) :
    memRead n s = .next (returnRead s n v) := by
  simp only [memRead, if_neg hn, h]

theorem memRead_of_not_holdsRegister {s : State} {n : RegNum} (h : ¬ holdsRegister s.cfg.nCh n.toNat) :
    memRead n s = .refused (.noSuchRegister n) := by
  have hn : n ≠ 6 := by rintro rfl; exact h (.inl (by decide))
  simp only [memRead, if_neg hn, readValue, hostReg_eq_none h, Option.bind_none, Option.map_none]

theorem memWrite_reqDim {s : State} {n : RegNum} {ch : Nat} (h : hostReg s.cfg.nCh n = some (.reqDim ch))
    (v : RegData) : memWrite n v s = writeRequest s ch v.toNat := by
  simp only [memWrite, h]

theorem memWrite_readOnly {s : State} {n : RegNum} {r : HostReg} (h : hostReg s.cfg.nCh n = some r)
    (hne : ∀ ch, r ≠ .reqDim ch) (v : RegData) : memWrite n v s = .refused (.readOnlyRegister n) := by
  cases r with
  | reqDim ch => exact absurd rfl (hne ch)
  | ctrl | flags | ssrStat | rxData | ssrCnt | sr | rxTake | appDim | cmp | cnt => simp only [memWrite, h]

theorem memWrite_of_not_holdsRegister {s : State} {n : RegNum} (h : ¬ holdsRegister s.cfg.nCh n.toNat)
    (v : RegData) : memWrite n v s = .refused (.noSuchRegister n) := by
  simp only [memWrite, hostReg_eq_none h]

/-- Settles O40: a register that exists has a value, and the value is the word of its row. -/
theorem registerMap : Obligations.RegisterMap := by
  intro s n hok hlen hn
  have h3 : s.chans.length ≤ 3 := hlen.trans_le (configOK_nCh_le hok)
  refine ⟨fun h6 => by subst h6; rfl, fun h6 => ?_⟩
  obtain ⟨v, hv⟩ := Option.isSome_iff_exists.1 (readValue_isSome hlen hn)
  refine ⟨v, memRead_of_readValue h6 hv, ?_, ?_, ?_, ?_, ?_, ?_, fun c hc => ?_⟩
  · rintro rfl i
    rw [BitVec.getLsbD, readValue_toNat hv rfl rfl (ctrlWord_lt h3), ctrlWord_testBit h3]
  · rintro rfl i
    rw [BitVec.getLsbD, readValue_toNat hv rfl rfl (flagsWord_lt h3), flagsWord_testBit h3]
  · rintro rfl
    rw [readValue_toNat hv rfl rfl (ssrStatWord_lt s), ssrStatWord]
    omega
  · rintro rfl
    exact readValue_toNat hv rfl rfl (s.ssr.rxData.isLt.trans (by decide))
  · rintro rfl
    rw [readValue_toNat hv rfl rfl (ssrCntWord_lt s), ssrCntWord]
    omega
  · rintro rfl
    exact readValue_toNat hv rfl rfl (s.ssr.sr.isLt.trans (by decide))
  · obtain ⟨hlt, -⟩ := List.getElem?_eq_some_iff.1 hc
    rw [hlen] at hlt
    refine ⟨fun h => ?_, fun h => ?_, fun h => ?_, fun h => ?_⟩
    · exact readValue_toNat hv (hostReg_eq_reqDim h hlt) (by rw [regValue, hc]; rfl)
        (c.requested.isLt.trans (by decide))
    · exact readValue_toNat hv (hostReg_eq_appDim h hlt) (by rw [regValue, hc]; rfl)
        (c.applied.isLt.trans (by decide))
    · exact readValue_toNat hv (hostReg_eq_cmp h hlt) (by rw [regValue, hc]; rfl) c.cmp.isLt
    · exact readValue_toNat hv (hostReg_eq_cnt h hlt) (by rw [regValue, hc]; rfl) c.cnt.isLt

/-- Settles O41: the step is the host port's access on the popped state. -/
theorem hostPortAccess : Obligations.HostPortAccess := by
  rintro s _ n rest hr hp rfl
  refine ⟨fun ht => step_eq_serveInput hr hp ht, fun v ht => ?_⟩
  rw [step_eq_serveInput hr hp ht]
  refine ⟨fun ch b hn hch hv => ?_, fun h => ?_, fun h => ?_⟩
  · have hlt := ch.isLt
    have hmod : n.toNat % 4 = ch.toNat := by omega
    have hreg := hostReg_eq_reqDim (nCh := s.cfg.nCh) (n := n) (by omega) (by omega)
    rw [hmod] at hreg
    rw [serveInput, memWrite_reqDim (s := popInput s rest) hreg, hv]
    rfl
  · obtain ⟨r, hreg, hne⟩ := hostReg_readOnly h
    exact memWrite_readOnly (s := popInput s rest) hreg hne v
  · exact memWrite_of_not_holdsRegister (s := popInput s rest) h v

/-- Settles O55: the guards of `CM`, of the write port and of the register map each refuse by name. -/
theorem absentChannelsAndRegistersStop : Obligations.AbsentChannelsAndRegistersStop :=
  fun _ _ _ _ => ⟨fun h => ⟨if_neg h.not_gt, if_neg h.not_gt⟩, memRead_of_not_holdsRegister⟩

end Sys2Proof.Machine
end

section
/-! The expansion `BYTE` of spec 30_encoding.md R94 and the recursion on the bits by which the model runs a byte of
the wire: the same clock periods, by induction on the bits left. -/

namespace Sys2Proof.Machine

/-- The periods of the bits `k - 1` down to 0 of a byte, written out as operations, are its `k` lowest clock bits. -/
theorem runOps_bits_eq_clockBits (v : Byte) (k : Nat) (s : State) :
    runOps ((List.range k).reverse.flatMap fun i => bitOps (v.getLsbD i)) s = clockBits v k s := by
  induction k generalizing s with
  | zero => rfl
  | succ k ih =>
    rw [List.range_succ, List.reverse_concat, List.flatMap_cons, runOps_append, runOps_bitOps, clockBits, funext ih]

/-- `BYTE v` is the byte on the wire (30_encoding.md R94; 20_memory.md R63). -/
theorem runOps_byteOps (v : Byte) (s : State) : runOps (byteOps v) s = wireByte v s :=
  runOps_bits_eq_clockBits v 8 s

/-- `ACKCLK` is the acknowledge clock (30_encoding.md R94). -/
theorem runOps_ackOps (s : State) : runOps ackOps s = execWireAck s :=
  runOps_bitOps true s

/-- Settles O32: each symbol's arm is the byte, or the acknowledge clock, that the expansion runs. -/
theorem wireSymbolsAreTheirClocks : Obligations.WireSymbolsAreTheirClocks := fun s b addr rw =>
  ⟨(runOps_byteOps b s).symm, (runOps_byteOps (addrByte addr rw) s).symm,
    (runOps_byteOps (addrByte (BitVec.ofNat 7 s.cfg.slaveAddr) rw) s).symm, (runOps_ackOps s).symm⟩

end Sys2Proof.Machine
end

section
/-! The decoder against the encoder (spec 30_encoding.md R81 to R83, R87 to R91): for each operand format of an event
word, what it reads from an assembled word, and what a word it reads is assembled from. -/

namespace Sys2Proof

open Sys2Proof.Machine

/-! What each format reads from the word the encoder assembles. -/

@[simp] theorem decodePlain_evtWord (op : BitVec 4) (i : Instr) : decodePlain (evtWord op 0 0) i = .ok i := by
  simp [decodePlain]

@[simp] theorem decodeBit_evtWord (op : BitVec 4) (f : Bool → Instr) (b : Bool) :
    decodeBit (evtWord op 0 (bitByte b)) f = .ok (f b) := by
  simp [decodeBit]

theorem decodeCm_evtWord {cfg : Config} {ch : BitVec 2} (op : BitVec 4) (h : ch.toNat < cfg.nCh) :
    decodeCm cfg (evtWord op ch 0) = .ok (.cm ch) := by
  simp [decodeCm, h]

theorem decodeReqwr_evtWord {cfg : Config} {ch : BitVec 2} (op : BitVec 4) (v : Byte) (h : ch.toNat < cfg.nCh) :
    decodeReqwr cfg (evtWord op ch v) = .ok (.reqwr ch v) := by
  simp [decodeReqwr, h]

theorem decodeRd_evtWord {cfg : Config} {n : RegNum} (op : BitVec 4) (h : (hostReg cfg.nCh n).isSome = true) :
    decodeRd cfg (evtWord op 0 (regByte n)) = .ok (.rd n) := by
  simp [decodeRd, h]

/-- A well-formed `SLAVE_ADDR` fits the 7 address bits (30_encoding.md R81; 00_scope.md R8). -/
theorem slaveAddr_toNat {cfg : Config} (h : configOK cfg = true) :
    (BitVec.ofNat 7 cfg.slaveAddr).toNat = cfg.slaveAddr :=
  Nat.mod_eq_of_lt (configOK_slaveAddr h)

/-- An address byte is addressed to this block by its address, whatever its read/write flag (30_encoding.md R81). -/
theorem addressed_addrByte (cfg : Config) (a : BitVec 7) (rw : Bool) :
    addressed cfg (addrByte a rw) = true ↔ a.toNat = cfg.slaveAddr := by
  simp [addressed]

theorem decodeAddr_addrByte (cfg : Config) (a : BitVec 7) (rw : Bool) :
    decodeAddr cfg (addrByte a rw) =
      if a.toNat = cfg.slaveAddr then .wireAddrMatch rw else .wireAddrMismatch a rw := by
  simp only [decodeAddr, addressed_addrByte, addrField_addrByte, rwField_addrByte]

/-- Settles O1: by the format of each instruction's code; the operation code picks the arm, and well-formedness is
what the arm asks of the operand. -/
theorem decodeUndoesEncode : Obligations.DecodeUndoesEncode := by
  intro cfg i hok hwf
  cases i with
  | reset | init | zc | tick | stop | fall | bb | rxtake =>
    simp only [encode, decode, decodeEvent, evtOp_evtWord]
    exact decodePlain_evtWord _ _
  | start b | rise b =>
    simp only [encode, decode, decodeEvent, evtOp_evtWord]
    exact decodeBit_evtWord _ _ b
  | cm ch =>
    simp only [encode, decode, decodeEvent, evtOp_evtWord]
    exact decodeCm_evtWord _ (of_decide_eq_true hwf)
  | reqwr ch v =>
    simp only [encode, decode, decodeEvent, evtOp_evtWord]
    exact decodeReqwr_evtWord _ v (of_decide_eq_true hwf)
  | rd n =>
    simp only [encode, decode, decodeEvent, evtOp_evtWord]
    exact decodeRd_evtWord _ hwf
  | reservedD | reservedE | reservedF => cases hwf
  | wireAddrMatch rw =>
    rw [encode, decode, decodeAddr_addrByte, if_pos (slaveAddr_toNat hok)]
  | wireAddrMismatch addr rw =>
    have ha : addr.toNat ≠ cfg.slaveAddr := bne_iff_ne.1 hwf
    rw [encode, decode, decodeAddr_addrByte, if_neg ha]
  | wireData | wireAck => rfl

/-! What a format reads is what its word is assembled from. -/

section
variable {cfg : Config} {w : EventWord} {op : BitVec 4} {i : Instr}

/-- A word of this operation code whose `z` is 0, put together from its operands (30_encoding.md R87). -/
theorem evtWord_of_fields {ch : BitVec 2} {d : Byte} (hop : (evtOp w).toNat = op.toNat) (hz : evtZ w = 0)
    (hch : evtCh w = ch) (hd : evtD w = d) : evtWord op ch d = w := by
  rw [← BitVec.eq_of_toNat_eq hop, ← hch, ← hd, evtWord_fields w hz]

theorem decodePlain_sound {j : Instr} (h : decodePlain w j = .ok i) (he : encode cfg j = .evt (evtWord op 0 0))
    (hwf : j.wf cfg = true) (hop : (evtOp w).toNat = op.toNat) :
    encode cfg i = .evt w ∧ i.wf cfg = true := by
  unfold decodePlain at h
  split at h
  · next hf =>
    obtain ⟨hz, hch, hd⟩ := hf
    cases h
    exact ⟨by rw [he, evtWord_of_fields hop hz hch hd], hwf⟩
  · cases h

theorem decodeBit_sound {f : Bool → Instr} (h : decodeBit w f = .ok i)
    (he : ∀ b, encode cfg (f b) = .evt (evtWord op 0 (bitByte b))) (hwf : ∀ b, (f b).wf cfg = true)
    (hop : (evtOp w).toNat = op.toNat) :
    encode cfg i = .evt w ∧ i.wf cfg = true := by
  unfold decodeBit at h
  split at h
  · next hf =>
    obtain ⟨hz, hch, hd⟩ := hf
    cases h
    exact ⟨by rw [he, evtWord_of_fields hop hz hch (bitByte_fields _ hd).symm], hwf _⟩
  · cases h

theorem decodeCm_sound (h : decodeCm cfg w = .ok i) (hop : (evtOp w).toNat = 4) :
    encode cfg i = .evt w ∧ i.wf cfg = true := by
  unfold decodeCm at h
  split at h
  · next hf =>
    obtain ⟨hz, hd⟩ := hf
    split at h
    · next hlt =>
      cases h
      exact ⟨congrArg Code.evt (evtWord_of_fields hop hz rfl hd), decide_eq_true hlt⟩
    · cases h
  · cases h

theorem decodeReqwr_sound (h : decodeReqwr cfg w = .ok i) (hop : (evtOp w).toNat = 10) :
    encode cfg i = .evt w ∧ i.wf cfg = true := by
  unfold decodeReqwr at h
  split at h
  · next hz =>
    split at h
    · next hlt =>
      cases h
      exact ⟨congrArg Code.evt (evtWord_of_fields hop hz rfl rfl), decide_eq_true hlt⟩
    · cases h
  · cases h

theorem decodeRd_sound (h : decodeRd cfg w = .ok i) (hop : (evtOp w).toNat = 12) :
    encode cfg i = .evt w ∧ i.wf cfg = true := by
  unfold decodeRd at h
  split at h
  · next hf =>
    obtain ⟨hz, hch, hd⟩ := hf
    split at h
    · next hreg =>
      cases h
      exact ⟨congrArg Code.evt (evtWord_of_fields hop hz hch (regByte_fields _ hd).symm), hreg⟩
    · cases h
  · cases h

/-- The event decoder reads a word only as the instruction it encodes (30_encoding.md R87 to R90). -/
theorem decodeEvent_sound (h : decodeEvent cfg w = .ok i) : encode cfg i = .evt w ∧ i.wf cfg = true := by
  unfold decodeEvent at h
  split at h
  case h_1 hop | h_2 hop | h_3 hop | h_4 hop | h_7 hop | h_9 hop | h_10 hop | h_12 hop =>
    exact decodePlain_sound h rfl rfl hop
  case h_6 hop | h_8 hop => exact decodeBit_sound h (fun _ => rfl) (fun _ => rfl) hop
  case h_5 hop => exact decodeCm_sound h hop
  case h_11 hop => exact decodeReqwr_sound h hop
  case h_13 hop => exact decodeRd_sound h hop
  case h_14 => cases h

end

/-- The address decoder reads a byte only as the symbol it encodes (30_encoding.md R81, R91). -/
theorem decodeAddr_sound (cfg : Config) (b : Byte) :
    encode cfg (decodeAddr cfg b) = .addr8 b ∧ (decodeAddr cfg b).wf cfg = true := by
  unfold decodeAddr
  split
  · next h =>
    have ha : BitVec.ofNat 7 cfg.slaveAddr = addrField b := by
      rw [← beq_iff_eq.1 h, BitVec.ofNat_toNat, BitVec.setWidth_eq]
    exact ⟨by rw [encode, ha, addrByte_fields], rfl⟩
  · next h => exact ⟨by rw [encode, addrByte_fields], bne_iff_ne.2 fun ha => h (beq_iff_eq.2 ha)⟩

/-- Settles O2: each format of code is read only as what encodes to it. -/
theorem encodeUndoesDecode : Obligations.EncodeUndoesDecode := by
  intro cfg c i h
  cases c with
  | evt w => exact decodeEvent_sound h
  | addr8 b => cases h; exact decodeAddr_sound cfg b
  | data8 b => cases h; exact ⟨rfl, rfl⟩
  | ack1 b =>
    cases b with
    | false => cases h; exact ⟨rfl, rfl⟩
    | true => cases h

end Sys2Proof
end

section
/-! The illegal event words (spec 30_encoding.md R90): what a word of given fields is refused for, one equation per
operand format, and the symbols and reserved codes of the tables. -/

namespace Sys2Proof

open Sys2Proof.Machine Sys2Proof.Safety

/-- Why a decoder's answer is a refusal, if it is one. -/
def refusalOf : Except Illegal Instr → Option Illegal
  | .ok _ => none
  | .error why => some why

theorem eq_error_of_refusalOf {r : Except Illegal Instr} {why : Illegal} (h : refusalOf r = some why) :
    r = .error why := by
  cases r with
  | ok i => cases h
  | error e => cases h; rfl

theorem exists_ok_of_refusalOf {r : Except Illegal Instr} (h : refusalOf r = none) : ∃ i, r = .ok i := by
  cases r with
  | ok i => exact ⟨i, rfl⟩
  | error e => cases h

/-- Why the event word with these fields is illegal, the first reason in the decoder's order (30_encoding.md R90;
log 17). -/
def whyIllegal (nCh op z ch d : Nat) : Option Illegal :=
  if 13 ≤ op then some (.reservedOp op)
  else if badField op z ch d then some .fieldNotZero
  else if badChannel nCh op ch then some (.noSuchChannel ch)
  else if badRegister nCh op d then some (.noSuchRegister (BitVec.ofNat 6 d))
  else none

/-- The fields of a word, as numbers (30_encoding.md R87). -/
structure HasFields (w : EventWord) (op z ch d : Nat) : Prop where
  op_eq : (evtOp w).toNat = op
  z_eq : (evtZ w).toNat = z
  ch_eq : (evtCh w).toNat = ch
  d_eq : (evtD w).toNat = d

theorem hasFields_ofNat {op z ch d : Nat} (hop : op < 16) (hz : z < 4) (hch : ch < 4) (hd : d < 256) :
    HasFields (BitVec.ofNat 16 (4096 * op + 1024 * z + 256 * ch + d)) op z ch d := by
  have hw : (BitVec.ofNat 16 (4096 * op + 1024 * z + 256 * ch + d)).toNat = 4096 * op + 1024 * z + 256 * ch + d :=
    Nat.mod_eq_of_lt (by omega)
  constructor
  · rw [evtOp_toNat, hw]; omega
  · rw [evtZ_toNat, hw]; omega
  · rw [evtCh_toNat, hw]; omega
  · rw [evtD_toNat, hw]; omega

section
variable {w : EventWord} {op z ch d : Nat}

theorem HasFields.z_zero_iff (h : HasFields w op z ch d) : evtZ w = 0 ↔ z = 0 := by
  rw [← h.z_eq, BitVec.toNat_eq]; rfl

theorem HasFields.ch_zero_iff (h : HasFields w op z ch d) : evtCh w = 0 ↔ ch = 0 := by
  rw [← h.ch_eq, BitVec.toNat_eq]; rfl

theorem HasFields.d_zero_iff (h : HasFields w op z ch d) : evtD w = 0 ↔ d = 0 := by
  rw [← h.d_eq, BitVec.toNat_eq]; rfl

/-- Bits [7:1] of the operand byte are 0 (30_encoding.md R87). -/
theorem HasFields.bit_iff (h : HasFields w op z ch d) : (evtD w).extractLsb' 1 7 = 0 ↔ d < 2 := by
  have hd := (evtD w).isLt
  rw [← h.d_eq, BitVec.toNat_eq, BitVec.extractLsb'_toNat, Nat.shiftRight_eq_div_pow]
  change _ = 0 ↔ _
  omega

/-- Bits [7:6] of the operand byte are 0 (30_encoding.md R87). -/
theorem HasFields.reg_iff (h : HasFields w op z ch d) : (evtD w).extractLsb' 6 2 = 0 ↔ d < 64 := by
  have hd := (evtD w).isLt
  rw [← h.d_eq, BitVec.toNat_eq, BitVec.extractLsb'_toNat, Nat.shiftRight_eq_div_pow]
  change _ = 0 ↔ _
  omega

theorem HasFields.reg_eq (h : HasFields w op z ch d) : (evtD w).extractLsb' 0 6 = BitVec.ofNat 6 d := by
  rw [← h.d_eq]
  exact BitVec.eq_of_toNat_eq (by simp)

theorem refusalOf_decodePlain (h : HasFields w op z ch d) (i : Instr) :
    refusalOf (decodePlain w i) = if z = 0 ∧ ch = 0 ∧ d = 0 then none else some .fieldNotZero := by
  simp only [decodePlain, h.z_zero_iff, h.ch_zero_iff, h.d_zero_iff, apply_ite refusalOf]
  rfl

theorem refusalOf_decodeBit (h : HasFields w op z ch d) (f : Bool → Instr) :
    refusalOf (decodeBit w f) = if z = 0 ∧ ch = 0 ∧ d < 2 then none else some .fieldNotZero := by
  simp only [decodeBit, h.z_zero_iff, h.ch_zero_iff, h.bit_iff, apply_ite refusalOf]
  rfl

theorem refusalOf_decodeCm (h : HasFields w op z ch d) (cfg : Config) :
    refusalOf (decodeCm cfg w) = if z = 0 ∧ d = 0 then if ch < cfg.nCh then none else some (.noSuchChannel ch)
      else some .fieldNotZero := by
  simp only [decodeCm, h.z_zero_iff, h.d_zero_iff, h.ch_eq, apply_ite refusalOf]
  rfl

theorem refusalOf_decodeReqwr (h : HasFields w op z ch d) (cfg : Config) :
    refusalOf (decodeReqwr cfg w) = if z = 0 then if ch < cfg.nCh then none else some (.noSuchChannel ch)
      else some .fieldNotZero := by
  simp only [decodeReqwr, h.z_zero_iff, h.ch_eq, apply_ite refusalOf]
  rfl

theorem refusalOf_decodeRd (h : HasFields w op z ch d) (cfg : Config) :
    refusalOf (decodeRd cfg w) = if z = 0 ∧ ch = 0 ∧ d < 64 then
      if holdsRegister cfg.nCh d then none else some (.noSuchRegister (BitVec.ofNat 6 d))
      else some .fieldNotZero := by
  simp only [decodeRd, h.z_zero_iff, h.ch_zero_iff, h.reg_iff, h.reg_eq, apply_ite refusalOf,
    hostReg_isSome_iff, BitVec.toNat_ofNat]
  split
  · next hf => rw [Nat.mod_eq_of_lt hf.2.2]; rfl
  · rfl

end

section
variable {op z ch d : Nat} (nCh : Nat)

theorem whyIllegal_plain (hop : op ∈ [0, 1, 2, 3, 6, 8, 9, 11]) :
    whyIllegal nCh op z ch d = if z = 0 ∧ ch = 0 ∧ d = 0 then none else some .fieldNotZero := by
  simp only [List.mem_cons, List.not_mem_nil, or_false] at hop
  by_cases hf : z = 0 ∧ ch = 0 ∧ d = 0
  · rw [if_pos hf, whyIllegal, if_neg, if_neg, if_neg, if_neg] <;> omega
  · rw [if_neg hf, whyIllegal, if_neg, if_pos] <;> omega

theorem whyIllegal_bit (hop : op = 5 ∨ op = 7) :
    whyIllegal nCh op z ch d = if z = 0 ∧ ch = 0 ∧ d < 2 then none else some .fieldNotZero := by
  by_cases hf : z = 0 ∧ ch = 0 ∧ d < 2
  · rw [if_pos hf, whyIllegal, if_neg, if_neg, if_neg, if_neg] <;> omega
  · rw [if_neg hf, whyIllegal, if_neg, if_pos] <;> omega

theorem whyIllegal_cm :
    whyIllegal nCh 4 z ch d = if z = 0 ∧ d = 0 then if ch < nCh then none else some (.noSuchChannel ch)
      else some .fieldNotZero := by
  by_cases hf : z = 0 ∧ d = 0
  · by_cases hch : ch < nCh
    · rw [if_pos hf, if_pos hch, whyIllegal, if_neg, if_neg, if_neg, if_neg] <;> omega
    · rw [if_pos hf, if_neg hch, whyIllegal, if_neg, if_neg, if_pos] <;> omega
  · rw [if_neg hf, whyIllegal, if_neg, if_pos] <;> omega

theorem whyIllegal_reqwr :
    whyIllegal nCh 10 z ch d = if z = 0 then if ch < nCh then none else some (.noSuchChannel ch)
      else some .fieldNotZero := by
  by_cases hf : z = 0
  · by_cases hch : ch < nCh
    · rw [if_pos hf, if_pos hch, whyIllegal, if_neg, if_neg, if_neg, if_neg] <;> omega
    · rw [if_pos hf, if_neg hch, whyIllegal, if_neg, if_neg, if_pos] <;> omega
  · rw [if_neg hf, whyIllegal, if_neg, if_pos] <;> omega

theorem whyIllegal_rd :
    whyIllegal nCh 12 z ch d = if z = 0 ∧ ch = 0 ∧ d < 64 then
      if holdsRegister nCh d then none else some (.noSuchRegister (BitVec.ofNat 6 d))
      else some .fieldNotZero := by
  by_cases hf : z = 0 ∧ ch = 0 ∧ d < 64
  · by_cases hreg : holdsRegister nCh d
    · rw [if_pos hf, if_pos hreg, whyIllegal, if_neg, if_neg, if_neg, if_neg] <;> omega
    · rw [if_pos hf, if_neg hreg, whyIllegal, if_neg, if_neg, if_neg, if_pos] <;> omega
  · rw [if_neg hf, whyIllegal, if_neg, if_pos] <;> omega

theorem whyIllegal_reserved (hop : 13 ≤ op) : whyIllegal nCh op z ch d = some (.reservedOp op) :=
  if_pos hop

end

/-- The decoder refuses an event word for the reason its fields give, and no other (30_encoding.md R90). -/
theorem refusalOf_decodeEvent {w : EventWord} {op z ch d : Nat} (h : HasFields w op z ch d)
    (cfg : Config) : refusalOf (decodeEvent cfg w) = whyIllegal cfg.nCh op z ch d := by
  obtain rfl := h.op_eq
  unfold decodeEvent
  split
  case h_1 e | h_2 e | h_3 e | h_4 e | h_7 e | h_9 e | h_10 e | h_12 e =>
    exact (refusalOf_decodePlain h _).trans (whyIllegal_plain _ (by rw [e]; decide)).symm
  case h_6 e | h_8 e => exact (refusalOf_decodeBit h _).trans (whyIllegal_bit _ (by omega)).symm
  case h_5 e => rw [refusalOf_decodeCm h, e, whyIllegal_cm]
  case h_11 e => rw [refusalOf_decodeReqwr h, e, whyIllegal_reqwr]
  case h_13 e => rw [refusalOf_decodeRd h, e, whyIllegal_rd]
  case h_14 => exact (whyIllegal_reserved _ (by grind)).symm

/-- A code the decoder refuses ends the run by its name and position (30_encoding.md R90). -/
theorem step_refused_of_decode_error {s : State} {c : Code} {rest : List Input} {why : Illegal}
    (hr : recordOK s.cfg = true) (hp : s.ports = []) (ht : s.trace = .code c :: rest)
    (hd : decode s.cfg c = .error why) : step s = .refused (.illegalWord why s.pos) := by
  rw [step_eq_serveInput hr hp ht, serveInput, serveCode, popInput_cfg, hd]

/-- Settles O3: the decoder's reason is the first that the fields give, and the step refuses by it. -/
theorem illegalEventWordsAreExact : Obligations.IllegalEventWordsAreExact := by
  rintro cfg op z ch d hop hz hch hd _ rfl
  have hwhy := refusalOf_decodeEvent (hasFields_ofNat hop hz hch hd) cfg
  refine ⟨fun h => ?_, fun h => ?_, fun hf h => ?_, fun hf h => ?_, fun h13 hf hc hr => ?_,
    fun s rest why => step_refused_of_decode_error⟩
  · exact eq_error_of_refusalOf (hwhy.trans (if_pos h))
  · have h13 : ¬ 13 ≤ op := h.1.not_ge
    exact eq_error_of_refusalOf (hwhy.trans (by rw [whyIllegal, if_neg h13, if_pos h]))
  · have h13 : ¬ 13 ≤ op := by omega
    exact eq_error_of_refusalOf (hwhy.trans (by rw [whyIllegal, if_neg h13, if_neg hf, if_pos h]))
  · have h13 : ¬ 13 ≤ op := by omega
    have hc : ¬ badChannel cfg.nCh op ch := by omega
    exact eq_error_of_refusalOf (hwhy.trans (by rw [whyIllegal, if_neg h13, if_neg hf, if_neg hc, if_pos h]))
  · exact exists_ok_of_refusalOf
      (hwhy.trans (by rw [whyIllegal, if_neg h13.not_ge, if_neg hf, if_neg hc, if_neg hr]))

/-- Settles O4: by evaluating the decoder on each word. -/
theorem tableWordsDecode : Obligations.TableWordsDecode := by
  unfold Obligations.TableWordsDecode
  decide

/-- The mask 0xFE leaves the address field, one bit up (30_encoding.md R81). -/
theorem masked_toNat (b : Byte) : (b &&& 0xFE).toNat = 2 * (addrField b).toNat := by
  revert b; decide

theorem addressed_ref_iff (b : Byte) : addressed Config.ref b = true ↔ b = 0xD4 ∨ b = 0xD5 := by
  revert b; decide

/-- An address byte is read as a match exactly when it is addressed to this block (30_encoding.md R81). -/
theorem decodeAddr_eq_match_iff (cfg : Config) (b : Byte) :
    (∃ rw, decode cfg (.addr8 b) = .ok (.wireAddrMatch rw)) ↔ addressed cfg b = true := by
  cases h : addressed cfg b <;> simp [decode, decodeAddr, h]

/-- Settles O5: the mask compares the address field, and two bytes carry the address of REF. -/
theorem addressByteMatches : Obligations.AddressByteMatches := by
  refine ⟨fun cfg b => congrArg Except.ok ?_, fun b => (decodeAddr_eq_match_iff _ b).trans (addressed_ref_iff b)⟩
  simp only [masked_toNat, Nat.mul_left_cancel_iff Nat.two_pos]
  exact if_congr beq_iff_eq rfl rfl

/-- Settles O54: each reserved code's arm is the refusal by its name. -/
theorem reservedCodesStop : Obligations.ReservedCodesStop := fun _ _ => ⟨rfl, rfl, rfl⟩

end Sys2Proof
end

section
/-! The symbols of the serial wire at a receiver that awaits them (spec 30_encoding.md R81 to R84;
42_serial_receiver.md R147 to R150): one equation per byte boundary, and a transaction byte by byte. -/

namespace Sys2Proof.Machine

/-! The byte boundary by the state it finds (42_serial_receiver.md R146 to R150). -/

section
variable {s : State}

theorem serveBoundary_addrMatch (hs : s.ssr.state = .checkAddress) (ha : addressed s.cfg s.ssr.sr = true) :
    serveBoundary s = withSsr s (addrMatchSsr s.ssr) := by
  simp [serveBoundary, bbAddr, hs, ha]

theorem serveBoundary_addrMismatch (hs : s.ssr.state = .checkAddress) (ha : ¬ addressed s.cfg s.ssr.sr = true) :
    serveBoundary s = withSsr s (addrMismatchSsr s.ssr) := by
  simp [serveBoundary, bbAddr, hs, ha]

theorem serveBoundary_release (hs : s.ssr.state = .recvDataWait) (hr : s.ssr.rxStatus ≠ .terminated) :
    serveBoundary s = withSsr s (waitReleaseSsr s.ssr) := by
  simp [serveBoundary, bbWait, hs, hr]

theorem serveBoundary_latch (hs : s.ssr.state = .recvDataAckSend) (hr : s.ssr.rxStatus = .pending) :
    serveBoundary s = withSsr s (ackSsr (latchSsr s.ssr)) := by
  simp [serveBoundary, bbAck, hs, hr]

theorem serveBoundary_drop (hs : s.ssr.state = .recvDataAckSend) (hr : s.ssr.rxStatus ≠ .pending) :
    serveBoundary s = raise (withSsr s (ackSsr s.ssr)) (.rxOverrun s.ssr.sr) := by
  simp [serveBoundary, bbAck, hs, hr]

end

theorem eq_addrByte {v : Byte} {a : BitVec 7} {rw : Bool} (h : v.toNat = 2 * a.toNat + rw.toNat) :
    v = addrByte a rw :=
  BitVec.eq_of_toNat_eq (h.trans (addrByte_toNat a rw).symm)

/-- Settles O33: the byte fills the shift register, and the boundary compares its address. -/
theorem addressByteOnTheWire : Obligations.AddressByteOnTheWire := by
  intro s addr rw v hok hen hm hst hc ht hd
  have hbyte := fun b => wireByte_boundary (s := s) b (clocked_eq_true hen hm) hd ht hc
  refine ⟨fun hv => ?_, fun hne hv => ?_⟩
  · rw [← slaveAddr_toNat hok] at hv
    obtain rfl := eq_addrByte hv
    refine (hbyte _).trans (congrArg _ (serveBoundary_addrMatch hst ?_))
    exact (addressed_addrByte s.cfg _ rw).2 (slaveAddr_toNat hok)
  · obtain rfl := eq_addrByte hv
    refine (hbyte _).trans (congrArg _ (serveBoundary_addrMismatch hst ?_))
    exact fun ha => hne ((addressed_addrByte s.cfg addr rw).1 ha)

/-- Settles O34: the byte fills the shift register, and the boundary latches or drops it. -/
theorem dataByteOnTheWire : Obligations.DataByteOnTheWire := by
  intro s d hen hm hst hc ht hd
  have hbyte := wireByte_boundary d (clocked_eq_true hen hm) hd ht hc
  exact ⟨fun hr => hbyte.trans (congrArg _ (serveBoundary_latch hst hr)),
    fun hr => hbyte.trans (congrArg _ (serveBoundary_drop hst hr))⟩

/-- The acknowledge clock of a pulled line reaches its target and releases it (42_serial_receiver.md R144, R149). -/
theorem exec_wireAck_release {s : State} (hcl : clocked s = true) (hst : s.ssr.state = .recvDataWait)
    (hc : s.ssr.bitCnt = 0) (ht : s.ssr.bitTarget = 1) (hr : s.ssr.rxStatus ≠ .terminated) :
    exec .wireAck s = .next (withSsr s (waitReleaseSsr (riseSsr true s.ssr))) := by
  have hlast : s.ssr.bitCnt + 1 = s.ssr.bitTarget := by rw [hc, ht]; rfl
  refine (clockBit_eq true hcl (by rw [hc]; decide)).trans ((if_pos hlast).trans ?_)
  exact congrArg _ (serveBoundary_release (s := withSsr s (riseSsr true s.ssr)) hst hr)

/-- Settles O35: the one clock reaches its target, with a 0 shifted in since the block pulls the line. -/
theorem acknowledgeOnTheWire : Obligations.AcknowledgeOnTheWire := by
  intro s v hen hm hst hc ht hd hr hv
  have hsr : v = (riseSsr true s.ssr).sr :=
    BitVec.eq_of_toNat_eq (by rw [riseSsr_sr_toNat, hv, hd]; simp)
  rw [exec_wireAck_release (clocked_eq_true hen hm) hst hc ht hr, hsr]
  rfl

/-! A transaction whose bytes are taken one by one (30_encoding.md R84). -/

/-- The receiver acknowledges a byte and can take another: the last is with the host. -/
structure AckingTaken (s : State) : Prop where
  ssrEn : s.ssrEn = true
  mode : s.ssr.mode = .counting
  state : s.ssr.state = .recvDataWait
  bitCnt : s.ssr.bitCnt = 0
  bitTarget : s.ssr.bitTarget = 1
  sdaDrive : s.ssr.sdaDrive = true
  rxStatus : s.ssr.rxStatus = .pending

/-- What a poll of the latch returns for a received byte (43_host_consumer.md R174). -/
def takenByte (b : Byte) : HostRead := ⟨6, BitVec.ofNat 16 (0x200 + b.toNat)⟩

theorem exec_rxtake_received {s : State} (hr : s.ssr.rxStatus = .received) :
    exec .rxtake s = .next { s with
      ssr := { s.ssr with rxStatus := .pending }, reads := s.reads ++ [takenByte s.ssr.rxData] } := by
  simp [exec, execRxtake, pollLatch, takeByte, returnRead, withSsr, rxTakeWord, statusTaken, rxStatusNum, takenByte,
    hr, Nat.add_comm]

/-- The rest of a trace runs on from the state its first operation answers (00_scope.md R14). -/
theorem runOps_cons_of_exec {i : Instr} {l : List Instr} {s t : State} (h : exec i s = .next t) :
    runOps (i :: l) s = runOps l t := by
  rw [runOps, h, andThen_next]

theorem exec_start_enabled {s : State} (b : Bool) (hen : s.ssrEn = true) :
    exec (.start b) s = .next (withSsr s (startSsr b s.ssr)) := by
  simp [exec, execStart, serveStart, hen]

/-- A start and this block's address byte leave it acknowledging, with nothing read or dropped (42_serial_receiver.md
R142, R147). -/
theorem runOps_start_address {s : State} (rw : Bool) (hok : configOK s.cfg = true) (hen : s.ssrEn = true)
    (l : List Instr) :
    ∃ t, runOps (.start false :: .wireAddrMatch rw :: l) s = runOps l t ∧ AckingTaken t ∧ t.reads = s.reads ∧
      t.ghost = s.ghost := by
  have hv : (addrByte (BitVec.ofNat 7 s.cfg.slaveAddr) rw).toNat = 2 * s.cfg.slaveAddr + rw.toNat := by
    rw [addrByte_toNat, slaveAddr_toNat hok]
  have haddr := (addressByteOnTheWire (withSsr s (startSsr false s.ssr)) 0 rw _ hok hen rfl rfl rfl rfl rfl).1 hv
  exact ⟨_, (runOps_cons_of_exec (exec_start_enabled false hen)).trans (runOps_cons_of_exec haddr),
    ⟨hen, rfl, rfl, rfl, rfl, rfl, rfl⟩, rfl, rfl⟩

/-- One byte of a transaction: the acknowledge before it, the byte, and the host's take, which returns it
(42_serial_receiver.md R149, R150; 43_host_consumer.md R174). -/
theorem AckingTaken.byte {s : State} (h : AckingTaken s) (b : Byte) (l : List Instr) :
    ∃ t, runOps (.wireAck :: .wireData b :: .rxtake :: l) s = runOps l t ∧ AckingTaken t ∧
      t.reads = s.reads ++ [takenByte b] ∧ t.ghost = s.ghost := by
  have hack := exec_wireAck_release (clocked_eq_true h.ssrEn h.mode) h.state h.bitCnt h.bitTarget
    (by rw [h.rxStatus]; decide)
  have hdata := (dataByteOnTheWire (withSsr s (waitReleaseSsr (riseSsr true s.ssr))) b h.ssrEn h.mode
    rfl rfl rfl rfl).1 h.rxStatus
  exact ⟨_, (runOps_cons_of_exec hack).trans ((runOps_cons_of_exec hdata).trans
    (runOps_cons_of_exec (exec_rxtake_received rfl))),
    ⟨h.ssrEn, h.mode, rfl, rfl, rfl, rfl, rfl⟩, rfl, rfl⟩

/-- Any number of bytes, each taken before the next, are returned in order (42_serial_receiver.md R155, R156). -/
theorem AckingTaken.bytes {s : State} (h : AckingTaken s) (bs : List Byte) :
    ∃ t, runOps (bs.flatMap fun b => [.wireAck, .wireData b, .rxtake]) s = .next t ∧ AckingTaken t ∧
      t.reads = s.reads ++ bs.map takenByte ∧ t.ghost = s.ghost := by
  induction bs generalizing s with
  | nil => exact ⟨s, rfl, h, (List.append_nil _).symm, rfl⟩
  | cons b bs ih =>
    obtain ⟨t, ht, hat, hreads, hghost⟩ := h.byte b (bs.flatMap fun b => [.wireAck, .wireData b, .rxtake])
    obtain ⟨u, hu, hau, hreads', hghost'⟩ := ih hat
    refine ⟨u, ht.trans hu, hau, ?_, hghost'.trans hghost⟩
    rw [hreads', hreads, List.append_assoc]
    rfl

/-- Settles O37: the receiver acknowledges after the address byte, and again after each byte the host takes. -/
theorem transactionDeliversItsBytes : Obligations.TransactionDeliversItsBytes := by
  intro s rw bs hok hen
  obtain ⟨t, ht, hat, hreads, hghost⟩ := runOps_start_address rw hok hen _
  obtain ⟨u, hu, hau, hreads', hghost'⟩ := hat.bytes bs
  exact ⟨u, ht.trans hu, by rw [hreads', hreads]; rfl, hau.rxStatus, hau.sdaDrive, hghost'.trans hghost⟩

end Sys2Proof.Machine
end

section
/-! The pin front end (spec 30_encoding.md R96): the step on one port change, and a sample as its changes in any
order (60_exceptions.md R198). -/

namespace Sys2Proof.Machine

/-! The step on a port change, by the operation it emits and the line history after it. -/

section
variable {s : State} {e : PortEvent} {rest : List PortEvent} {f : Front}

theorem step_eq_servePort (hr : recordOK s.cfg = true) (hp : s.ports = e :: rest) :
    step s = servePort e (popPort s rest) := by
  simp only [step, (configRefusal_eq_none_iff _).2 hr, hp]

theorem step_port_emits {i : Instr} (hr : recordOK s.cfg = true) (hp : s.ports = e :: rest)
    (hi : portOp s.cfg.zcEdge s.front e = some i) (hf : portFront s.ssrEn s.front e = f) :
    step s = exec i { s with ports := rest, front := f } := by
  rw [step_eq_servePort hr hp, servePort, popPort_cfg, popPort_front, popPort_ssrEn, hi, hf]
  rfl

theorem step_port_silent (hr : recordOK s.cfg = true) (hp : s.ports = e :: rest)
    (hi : portOp s.cfg.zcEdge s.front e = none) (hf : portFront s.ssrEn s.front e = f) :
    step s = .next { s with ports := rest, front := f } := by
  rw [step_eq_servePort hr hp, servePort, popPort_cfg, popPort_front, popPort_ssrEn, hi, hf]
  rfl

end

/-- A zero-cross change emits `ZC` on an edge that `ZC_EDGE_SEL` selects (30_encoding.md R96, rows 1 and 2). -/
theorem portOp_zcIn (sel : EdgeSel) (f : Front) (b : Bool) :
    portOp sel f (.zcIn b) = if edgeSelected sel f.zcPrev b then some .zc else none := rfl

theorem edgeSelected_rise (sel : EdgeSel) : edgeSelected sel false true = true ↔ sel ≠ .falling := by
  cases sel <;> decide

theorem edgeSelected_fall (sel : EdgeSel) : edgeSelected sel true false = true ↔ sel ≠ .rising := by
  cases sel <;> decide

/-- Settles O47: each row is the operation its change emits and the history that follows it. -/
theorem frontEndRows : Obligations.FrontEndRows := by
  intro s e rest hr hp
  refine ⟨?rst, ?tick, ?zcIn, ?sclRise, ?startLow, ?sclFall, ?sdaFall, ?startHigh, ?stop, ?sdaClockLow⟩
  case rst => rintro rfl; exact step_port_emits hr hp rfl rfl
  case tick => rintro rfl; exact step_port_emits hr hp rfl rfl
  case zcIn =>
    rintro b rfl _ rfl
    refine ⟨fun h0 hb hsel => ?_, fun h0 hb hsel => ?_, fun h0 hb hsel => ?_, fun h0 hb hsel => ?_⟩ <;> subst hb
    · exact step_port_emits hr hp (by rw [portOp_zcIn, h0, if_pos ((edgeSelected_rise _).2 hsel)]) rfl
    · exact step_port_emits hr hp (by rw [portOp_zcIn, h0, if_pos ((edgeSelected_fall _).2 hsel)]) rfl
    · exact step_port_silent hr hp (by rw [portOp_zcIn, h0, hsel]; rfl) rfl
    · exact step_port_silent hr hp (by rw [portOp_zcIn, h0, hsel]; rfl) rfl
  case sclRise =>
    rintro rfl h0
    exact step_port_emits hr hp (by simp [portOp, h0]) (by simp [portFront, h0])
  case startLow =>
    rintro rfl h1 hst
    exact step_port_emits hr hp (by simp [portOp, h1, hst]) (by simp [portFront, h1])
  case sclFall =>
    rintro rfl h1 hst
    exact step_port_emits hr hp (by simp [portOp, h1, hst]) (by simp [portFront, hst])
  case sdaFall =>
    rintro rfl h1 hcl hst
    exact step_port_silent hr hp (by simp [portOp]) (by simp [portFront, h1, hcl, hst])
  case startHigh =>
    rintro rfl h0 hcl hst
    exact step_port_emits hr hp (by simp [portOp, h0, hcl, hst]) (by simp [portFront, h0, hcl])
  case stop =>
    rintro rfl h0 hcl hst
    exact step_port_emits hr hp (by simp [portOp, h0, hcl, hst]) (by simp [portFront, h0, hst])
  case sdaClockLow =>
    rintro b rfl hcl
    exact step_port_silent hr hp (by simp [portOp, hcl]) (by simp [portFront, hcl])

/-! A sample as the list of its changes. -/

/-- The changes are picked from the five ports in their order (30_encoding.md R96). -/
theorem sampleEvents_sublist (f : Front) (p : Sample) :
    (sampleEvents f p).Sublist [.rst, .tick, .zcIn p.zcIn, .scl p.scl, .sdaIn p.sdaIn] := by
  have pick : ∀ (c : Prop) [Decidable c] (e : PortEvent), (if c then [e] else []).Sublist [e] := by
    intro c _ e
    split
    · exact .refl _
    · exact List.nil_sublist _
  have skip : ∀ (c : Prop) [Decidable c] (e : PortEvent), (if c then [] else [e]).Sublist [e] := by
    intro c _ e
    split
    · exact List.nil_sublist _
    · exact .refl _
  exact ((((pick _ _).append (pick _ _)).append (skip _ _)).append (skip _ _)).append (skip _ _)

/-- No change of a sample is listed twice. -/
theorem sampleEvents_nodup (f : Front) (p : Sample) : (sampleEvents f p).Nodup :=
  (sampleEvents_sublist f p).nodup (by simp)

/-- The changes of a sample, port by port (30_encoding.md R96). -/
theorem mem_sampleEvents {f : Front} {p : Sample} {e : PortEvent} :
    e ∈ sampleEvents f p ↔ (e = .rst ∧ p.rst = true) ∨ (e = .tick ∧ p.tick = true) ∨
      (e = .zcIn p.zcIn ∧ p.zcIn ≠ f.zcPrev) ∨ (e = .scl p.scl ∧ p.scl ≠ f.sclPrev) ∨
      (e = .sdaIn p.sdaIn ∧ p.sdaIn ≠ f.sdaPrev) := by
  simp [sampleEvents, and_comm]

section
variable {s : State} {p : Sample} {rest : List Input}

theorem step_sample_refused (hr : recordOK s.cfg = true) (hp : s.ports = []) (ht : s.trace = .sample p :: rest)
    (hscl : p.scl ≠ s.front.sclPrev) (hsda : p.sdaIn ≠ s.front.sdaPrev) : step s = .refused .bothLinesChange :=
  (step_eq_serveInput hr hp ht).trans (if_pos ⟨hscl, hsda⟩)

/-- A sample that is not refused leaves its changes waiting, in the order the free value picks (30_encoding.md R96;
60_exceptions.md R198). -/
theorem step_sample_next (hr : recordOK s.cfg = true) (hp : s.ports = []) (ht : s.trace = .sample p :: rest)
    (h : p.scl = s.front.sclPrev ∨ p.sdaIn = s.front.sdaPrev) :
    step s = .next { s with
      trace := rest, pos := s.pos + 1, draws := s.draws + 1
      ports := arrange (sampleEvents s.front p) (Config.eventOrder s.draws) } := by
  have hnot : ¬ (p.scl ≠ s.front.sclPrev ∧ p.sdaIn ≠ s.front.sdaPrev) := fun ⟨hscl, hsda⟩ => h.elim hscl hsda
  refine (step_eq_serveInput hr hp ht).trans ((if_neg hnot).trans ?_)
  rw [popInput_ports, hp]
  rfl

end

/-- Settles O48: the waiting changes are an arrangement of the sample's. -/
theorem sampleBecomesItsChanges : Obligations.SampleBecomesItsChanges := by
  intro s p rest hr hp ht
  have hperm := arrange_perm (sampleEvents s.front p) (Config.eventOrder s.draws)
  exact ⟨step_sample_refused hr hp ht, fun h => ⟨_, step_sample_next hr hp ht h, rfl,
    hperm.nodup_iff.2 (sampleEvents_nodup _ _), fun e => hperm.mem_iff.trans mem_sampleEvents⟩⟩

/-- Every order of a list is one of its arrangements: the first member is put back where the order has it, into an
arrangement of the others (60_exceptions.md R198). -/
theorem exists_arrange_eq {α : Type} {l m : List α} (h : m.Perm l) : ∃ k, arrange l k = m := by
  induction l generalizing m with
  | nil => exact ⟨0, h.eq_nil.symm⟩
  | cons a l ih =>
    cases l with
    | nil => exact ⟨0, (List.perm_singleton.1 h).symm⟩
    | cons b l =>
      obtain ⟨n, hn, rfl⟩ := List.getElem_of_mem (h.mem_iff.2 List.mem_cons_self)
      have herase : (m.eraseIdx n).Perm (b :: l) :=
        ((List.getElem_cons_eraseIdx_perm hn).trans h).cons_inv
      obtain ⟨k, hk⟩ := ih herase
      have hlt : n < l.length + 2 := hn.trans_eq h.length_eq
      refine ⟨n + (l.length + 2) * k, ?_⟩
      rw [arrange, Nat.add_mul_div_left _ _ (by omega), Nat.div_eq_of_lt hlt, Nat.zero_add,
        Nat.add_mul_mod_self_left, Nat.mod_eq_of_lt hlt, hk, List.insertIdx_eraseIdx_getElem hn]

theorem perm_iff_exists_arrange_eq {α : Type} (l m : List α) : m.Perm l ↔ ∃ k, arrange l k = m :=
  ⟨exists_arrange_eq, fun ⟨k, hk⟩ => hk ▸ arrange_perm l k⟩

/-- Settles O49: the step on a sample, and that arrangements and orders are the same. -/
theorem everyOrderCanOccur : Obligations.EveryOrderCanOccur :=
  ⟨perm_iff_exists_arrange_eq, fun _ _ _ hr hp ht h =>
    ⟨step_sample_next hr hp ht h, perm_iff_exists_arrange_eq _⟩⟩

end Sys2Proof.Machine
end

section
/-! The zero-cross detector (spec 40_zero_cross.md R111 to R113, R117): one equation per answer of `ZC`, and the
compare matches that make the next edge one it accepts. -/

namespace Sys2Proof.Machine

theorem anyPending_eq_true_iff (s : State) : anyPending s = true ↔ ∃ c ∈ s.chans, c.zcp = true := List.any_eq_true

theorem anyPending_eq_false_iff (s : State) : anyPending s = false ↔ ∀ c ∈ s.chans, c.zcp = false := by
  simp [anyPending]

/-- The state after an accepted zero-cross (40_zero_cross.md R111). -/
abbrev crossed (s : State) : State := withChans s (s.chans.map (crossChan s.cfg))

/-- The state after the compare match of every channel (41_phase_timer.md R122). -/
abbrev serviced (s : State) : State := withChans s (s.chans.mapIdx (serviceChan s.cfg))

section
variable {s : State}

/-- A disabled zero-cross does nothing (40_zero_cross.md R112). -/
theorem exec_zc_disabled (hz : s.zcEn = false) : exec .zc s = .next s := by
  simp [exec, execZc, hz]

/-- A zero-cross on a pending flag is dropped (40_zero_cross.md R111). -/
theorem exec_zc_dropped (hz : s.zcEn = true) (hp : anyPending s = true) : exec .zc s = .next (raise s .zcOverrun) := by
  simp [exec, execZc, hz, hp]

/-- A zero-cross with no flag pending is accepted (40_zero_cross.md R111). -/
theorem exec_zc_accepted (hz : s.zcEn = true) (hp : anyPending s = false) : exec .zc s = .next (crossed s) := by
  simp [exec, execZc, hz, hp]

/-- An accepted zero-cross leaves every flag set, and there is a channel to hold one (40_zero_cross.md R111). -/
theorem anyPending_crossed (hne : s.chans ≠ []) : anyPending (crossed s) = true := by
  obtain ⟨c, hc⟩ := List.exists_mem_of_ne_nil _ hne
  exact (anyPending_eq_true_iff _).2 ⟨_, List.mem_map_of_mem hc, rfl⟩

/-- A service of an enabled channel leaves its flag clear (41_phase_timer.md R122). -/
theorem serviceChan_zcp (cfg : Config) (ch : Nat) {c : Chan} (hen : c.cmEn = true) :
    (serviceChan cfg ch c).zcp = false := by
  rw [serviceChan_enabled _ _ _ hen]

/-- With every channel enabled, the compare match of each leaves no flag pending (40_zero_cross.md R117). -/
theorem anyPending_serviced (hen : ∀ c ∈ s.chans, c.cmEn = true) : anyPending (serviced s) = false := by
  refine (anyPending_eq_false_iff _).2 fun d hd => ?_
  obtain ⟨ch, hlt, rfl⟩ := List.mem_mapIdx.1 hd
  exact serviceChan_zcp _ _ (hen _ (List.getElem_mem hlt))

/-- `CM` on every channel of the record serves every channel (41_phase_timer.md R122). -/
theorem runOps_services_all (hok : configOK s.cfg = true) (hlen : s.chans.length = s.cfg.nCh) :
    runOps ((List.range s.cfg.nCh).map fun ch => .cm (BitVec.ofNat 2 ch)) s = .next (serviced s) := by
  have hmax := configOK_nCh_le hok
  have hex : ∀ k ∈ List.range s.cfg.nCh, k < s.chans.length ∧ k < 4 := fun k hk => by
    rw [List.mem_range] at hk; omega
  rw [runOps_services _ s List.nodup_range hex]
  refine congrArg (fun cs => Host.Outcome.next (withChans s cs)) (List.mapIdx_eq_mapIdx_iff.2 fun k hk => ?_)
  exact if_pos (List.mem_range.2 (hlen ▸ hk))

end

/-- Settles O15: the three answers of `ZC`, by whether it is enabled and whether a flag is pending. -/
theorem zeroCross : Obligations.ZeroCross := by
  intro s
  refine ⟨exec_zc_disabled, fun hz hp => exec_zc_dropped hz ((anyPending_eq_true_iff s).2 hp), fun hz hp => ?_⟩
  refine ⟨_, exec_zc_accepted hz ((anyPending_eq_false_iff s).2 hp), rfl, List.length_map _, fun ch c hc => ?_⟩
  rw [withChans_chans, List.getElem?_map, hc]
  rfl

/-- Settles O16: the first edge leaves every flag set, so the second is dropped; the compare matches clear them all,
so the edge after them is accepted. -/
theorem bounceIsDropped : Obligations.BounceIsDropped := by
  intro s hok hlen hz hch
  have hne : s.chans ≠ [] := by
    have hpos := ((rangesOK_iff _).1 (configOK_rangesOK hok)).1.1
    exact List.ne_nil_of_length_pos (by omega)
  have hzc : exec .zc s = .next (crossed s) :=
    exec_zc_accepted hz ((anyPending_eq_false_iff s).2 fun c hc => (hch c hc).1)
  have hdrop : exec .zc (crossed s) = .next (raise (crossed s) .zcOverrun) :=
    exec_zc_dropped hz (anyPending_crossed hne)
  have hcms := runOps_services_all (s := crossed s) hok ((List.length_map _).trans hlen)
  have hen : ∀ c ∈ (crossed s).chans, c.cmEn = true := List.forall_mem_map.2 fun c hc => (hch c hc).2
  have hagain : exec .zc (serviced (crossed s)) = .next (crossed (serviced (crossed s))) :=
    exec_zc_accepted hz (anyPending_serviced hen)
  refine ⟨crossed s, crossed (serviced (crossed s)), runOps_cons_of_exec hzc, ?twoEdges, ?afterMatches, rfl,
    List.forall_mem_map.2 fun _ _ => ⟨rfl, rfl⟩⟩
  case twoEdges => exact (runOps_cons_of_exec hzc).trans (runOps_cons_of_exec hdrop)
  case afterMatches =>
    calc runOps (.zc :: ((List.range s.cfg.nCh).map fun ch => .cm (BitVec.ofNat 2 ch)) ++ [.zc]) s
      _ = runOps (((List.range s.cfg.nCh).map fun ch => .cm (BitVec.ofNat 2 ch)) ++ [.zc]) (crossed s) :=
        runOps_cons_of_exec hzc
      _ = runOps [.zc] (serviced (crossed s)) := (runOps_append _ _ _).trans (congrArg (andThen · _) hcms)
      _ = .next (crossed (serviced (crossed s))) := runOps_cons_of_exec hagain

end Sys2Proof.Machine
end

section
/-! The phase delay (spec 41_phase_timer.md R121, R122, R129, R136): a run of ticks channel by channel, and the tick at
which a channel with a settled request is decided. -/

namespace Sys2Proof.Machine

/-- Ticks in a row tick each channel as many times (41_phase_timer.md R121). -/
theorem runOps_ticksOps (n : Nat) (s : State) :
    runOps (ticksOps n) s = .next (withChans s (s.chans.mapIdx fun ch => (tickChan s.cfg ch)^[n])) := by
  induction n generalizing s with
  | zero =>
    have hid : s.chans.mapIdx (fun _ c => c) = s.chans := List.ext_getElem? fun j => by simp
    exact congrArg (fun cs => Host.Outcome.next (withChans s cs)) hid.symm
  | succ n ih =>
    rw [ticksOps, List.replicate_succ, runOps_cons_of_exec (t := withChans s (s.chans.mapIdx (tickChan s.cfg))) rfl]
    refine (ih _).trans ?_
    rw [withChans_chans, withChans_cfg, withChans_withChans, List.mapIdx_mapIdx]
    rfl

theorem tickChan_of_match {cfg : Config} {ch : Nat} {c : Chan} (hen : c.cmEn = true)
    (hm : (countChan cfg ch c).cnt = c.cmp) : tickChan cfg ch c = serviceChan cfg ch (countChan cfg ch c) := by
  simp [tickChan, hen, hm]

theorem tickChan_of_no_match {cfg : Config} {ch : Nat} {c : Chan} (hm : (countChan cfg ch c).cnt ≠ c.cmp) :
    tickChan cfg ch c = countChan cfg ch c := by
  simp [tickChan, hm]

/-- The tick of a half cycle at which a counter that starts at 0 reaches this compare value; 0 is reached as the
counter wraps (41_phase_timer.md R121, R129). -/
def matchTick (cfg : Config) (ch : Nat) (cmp : TimerReg) : Nat :=
  if cmp = 0 then 2 ^ cfg.width ch else cmp.toNat

/-- A channel `n` ticks on from counter 0 with its flag set, where the request is settled: decided from its match on
(41_phase_timer.md R122, R136). -/
def afterTicks (cfg : Config) (ch n : Nat) (c : Chan) : Chan :=
  { c with
    cnt := BitVec.ofNat 16 (n % 2 ^ cfg.width ch)
    zcp := decide (n < matchTick cfg ch c.cmp)
    drive := c.drive || (decide (matchTick cfg ch c.cmp ≤ n) && decide (cfg.minPct < c.applied.toNat)) }

section
variable {cfg : Config} {ch n : Nat} {c : Chan}

theorem matchTick_pos (cfg : Config) (ch : Nat) (cmp : TimerReg) : 0 < matchTick cfg ch cmp := by
  unfold matchTick
  split
  · exact Nat.two_pow_pos _
  · next h => exact Nat.pos_of_ne_zero fun h0 => h (BitVec.eq_of_toNat_eq h0)

/-- In the ticks up to the wrap the counter equals the compare value at the match tick alone (41_phase_timer.md
R121, R129). -/
theorem cnt_eq_cmp_iff {cmp : TimerReg} (hw : 2 ^ cfg.width ch ≤ 65536) (hcmp : cmp.toNat < 2 ^ cfg.width ch)
    (h0 : 0 < n) (hn : n ≤ 2 ^ cfg.width ch) :
    BitVec.ofNat 16 (n % 2 ^ cfg.width ch) = cmp ↔ n = matchTick cfg ch cmp := by
  have hlt := Nat.mod_lt n (Nat.two_pow_pos (cfg.width ch))
  have hz : cmp = 0 ↔ cmp.toNat = 0 := BitVec.toNat_inj.symm
  rw [← BitVec.toNat_inj, BitVec.toNat_ofNat, Nat.mod_eq_of_lt (hlt.trans_le hw)]
  simp only [matchTick, hz]
  obtain hwrap | hlow := hn.eq_or_lt
  · rw [hwrap, Nat.mod_self]
    split <;> omega
  · rw [Nat.mod_eq_of_lt hlow]
    split <;> omega

theorem afterTicks_zero (hz : c.zcp = true) (hc : c.cnt = 0) : afterTicks cfg ch 0 c = c := by
  have hpos := matchTick_pos cfg ch c.cmp
  cases c
  simp_all [afterTicks, Nat.pos_iff_ne_zero]

theorem countChan_afterTicks_cnt (hw : 2 ^ cfg.width ch ≤ 65536) :
    (countChan cfg ch (afterTicks cfg ch n c)).cnt = BitVec.ofNat 16 ((n + 1) % 2 ^ cfg.width ch) := by
  have hlt := Nat.mod_lt n (Nat.two_pow_pos (cfg.width ch))
  simp only [countChan, afterTicks, BitVec.toNat_ofNat]
  rw [Nat.mod_eq_of_lt (hlt.trans_le hw), Nat.mod_add_mod]

/-- One more tick, up to the wrap: the match tick decides the channel, no other does (41_phase_timer.md R121,
R122). -/
theorem tickChan_afterTicks (hw : 2 ^ cfg.width ch ≤ 65536) (hen : c.cmEn = true) (hreq : c.requested = c.applied)
    (hcmp : c.cmp.toNat < 2 ^ cfg.width ch) (hn : n < 2 ^ cfg.width ch) :
    tickChan cfg ch (afterTicks cfg ch n c) = afterTicks cfg ch (n + 1) c := by
  have hcnt := countChan_afterTicks_cnt (n := n) (c := c) hw
  have hiff := cnt_eq_cmp_iff hw hcmp n.succ_pos hn
  by_cases hm : n + 1 = matchTick cfg ch c.cmp
  · rw [tickChan_of_match (c := afterTicks cfg ch n c) hen (hcnt.trans (hiff.2 hm)),
      serviceChan_enabled _ _ (countChan cfg ch (afterTicks cfg ch n c)) hen, hcnt]
    simp [afterTicks, ← hm, hreq]
  · rw [tickChan_of_no_match fun h => hm (hiff.1 (hcnt.symm.trans h))]
    have hlt : n + 1 < matchTick cfg ch c.cmp ↔ n < matchTick cfg ch c.cmp := by omega
    have hle : matchTick cfg ch c.cmp ≤ n + 1 ↔ matchTick cfg ch c.cmp ≤ n := by omega
    simp only [countChan, afterTicks] at hcnt ⊢
    simp only [hcnt, hlt, hle]

/-- Ticks up to the wrap, from a channel with its flag set and its counter at 0 (41_phase_timer.md R121, R136). -/
theorem tickChan_iterate (hw : 2 ^ cfg.width ch ≤ 65536) (hz : c.zcp = true) (hc : c.cnt = 0) (hen : c.cmEn = true)
    (hreq : c.requested = c.applied) (hcmp : c.cmp.toNat < 2 ^ cfg.width ch) (hn : n ≤ 2 ^ cfg.width ch) :
    (tickChan cfg ch)^[n] c = afterTicks cfg ch n c := by
  induction n with
  | zero => exact (afterTicks_zero hz hc).symm
  | succ n ih => rw [Function.iterate_succ_apply', ih (Nat.le_of_succ_le hn), tickChan_afterTicks hw hen hreq hcmp hn]

end

/-- Settles O21: the zero-cross sets the flag and clears the counter, and the ticks run the channel to its match. -/
theorem firesAfterItsDelay : Obligations.FiresAfterItsDelay := by
  intro s ch n m c hok hlen hz hp hc hen hreq hcmp hm hn
  obtain ⟨hlt, -⟩ := List.getElem?_eq_some_iff.1 hc
  have hw := (configOK_width_bound hok (hlen ▸ hlt)).2
  have hticks : (tickChan s.cfg ch)^[n] (crossChan s.cfg c) = afterTicks s.cfg ch n (crossChan s.cfg c) :=
    tickChan_iterate hw rfl rfl hen hreq hcmp hn
  refine ⟨_, afterTicks s.cfg ch n (crossChan s.cfg c),
    (runOps_cons_of_exec (exec_zc_accepted hz ((anyPending_eq_false_iff s).2 hp))).trans (runOps_ticksOps n _), ?_, ?_⟩
  · simp [hc, hticks]
  · subst hm
    simp [afterTicks, crossChan, matchTick]

end Sys2Proof.Machine
end

section
/-! The translator (spec 41_phase_timer.md R125 to R127): `DELAY` as one quotient, and `CMPVAL` policy by policy. -/

namespace Sys2Proof.Machine

/-- `DELAY` with its clamp written as the cut at 100 (41_phase_timer.md R125). -/
theorem delay_eq (cfg : Config) (d : Nat) :
    delay cfg d = (100 - min d 100) * cfg.fClk / (cfg.prescaler * cfg.kStep) := by
  rw [delay, clamp_hundred]

/-- Full brightness has no delay (41_phase_timer.md R126). -/
theorem delay_eq_zero (cfg : Config) {d : Nat} (hd : 100 ≤ d) : delay cfg d = 0 := by
  rw [delay_eq, Nat.min_eq_right hd, Nat.sub_self, Nat.zero_mul, Nat.zero_div]

theorem cmpVal_of_refuse {cfg : Config} (h : cfg.ovf = .refuse) (ch d : Nat) : cmpVal cfg ch d = delay cfg d := by
  simp only [cmpVal, h]

theorem cmpVal_of_truncate {cfg : Config} (h : cfg.ovf = .truncate) (ch d : Nat) :
    cmpVal cfg ch d = delay cfg d % 2 ^ cfg.width ch := by
  simp only [cmpVal, h]

theorem cmpVal_of_saturate {cfg : Config} (h : cfg.ovf = .saturate) (ch d : Nat) :
    cmpVal cfg ch d = min (delay cfg d) (2 ^ cfg.width ch - 1) := by
  simp only [cmpVal, h]

/-- A record whose `DELAY(0)` is too wide for a channel is not well formed under `refuse` (41_phase_timer.md R127). -/
theorem configOK_eq_false_of_overflow {cfg : Config} {ch : Nat} (hch : ch < cfg.nCh) (ho : cfg.ovf = .refuse)
    (hwide : 2 ^ cfg.width ch ≤ delay cfg 0) : configOK cfg = false :=
  Bool.eq_false_iff.2 fun hok => (configOK_delay_lt hok ho hch 0).not_ge hwide

/-- Settles O9: the two bounds of a quotient by a positive divisor. -/
theorem delayIsTheFloor : Obligations.DelayIsTheFloor := by
  intro cfg d hp hk
  rw [delay_eq]
  exact ⟨Nat.div_mul_le_self _ _, (Nat.div_lt_iff_lt_mul (Nat.mul_pos hp hk)).1 (Nat.lt_succ_self _)⟩

/-- Settles O10: the cut at 100 is monotone, and so is the quotient. -/
theorem delayIsMonotone : Obligations.DelayIsMonotone := fun cfg _ =>
  ⟨fun _ _ => delay_le_of_le cfg, delay_eq cfg 0, fun d => delay_le_of_le cfg d.zero_le, fun _ => delay_eq_zero cfg⟩

/-- Settles O11: an overflowing record is refused, and every policy gives a value the register holds. -/
theorem compareValueFits : Obligations.CompareValueFits :=
  ⟨fun _ _ => configOK_eq_false_of_overflow, fun cfg ch d hok hch =>
    ⟨delay_le_of_le cfg d.zero_le, cmpVal_lt hok hch d, cmpReg_toNat hok hch d, (cmpVal_of_refuse · ch d),
      (cmpVal_of_truncate · ch d), (cmpVal_of_saturate · ch d)⟩⟩

end Sys2Proof.Machine
end

section
/-! The operations `CM` and `TICK` (spec 41_phase_timer.md R121 to R124, R133): a service on its channel alone, a tick
as its count and its match, and the tick as the spec's two loops. -/

namespace Sys2Proof.Machine

/-- `CM` on a channel that exists serves that channel (41_phase_timer.md R122). -/
theorem exec_cm {s : State} {ch : BitVec 2} (h : ch.toNat < s.chans.length) :
    exec (.cm ch) s = .next (withChans s (s.chans.modify ch.toNat (serviceChan s.cfg ch.toNat))) := by
  simp only [exec, execCm, h, if_true]

/-- `TICK` ticks every channel (41_phase_timer.md R121). -/
theorem exec_tick (s : State) : exec .tick s = .next (withChans s (s.chans.mapIdx (tickChan s.cfg))) := rfl

/-- Settles O17: the service of a disabled channel is nothing, that of an enabled one its two steps. -/
theorem compareService : Obligations.CompareService := by
  intro s ch c hc
  obtain ⟨hlt, -⟩ := List.getElem?_eq_some_iff.1 hc
  refine ⟨fun hen => ?disabled, fun hen =>
    ⟨_, exec_cm hlt, rfl, List.length_modify _ _ _, ?served, fun k hk => ?other⟩⟩
  case disabled =>
    have hsame : s.chans.modify ch.toNat (serviceChan s.cfg ch.toNat) = s.chans := List.ext_getElem? fun j => by
      rw [getElem?_modify]
      split
      · next hj => subst hj; rw [hc, Option.map_some, serviceChan_disabled _ _ _ hen]
      · rfl
    rw [exec_cm hlt, hsame, withChans_self]
  case served => rw [withChans_chans, getElem?_modify, if_pos rfl, hc, Option.map_some, serviceChan_enabled _ _ _ hen]
  case other => rw [withChans_chans, getElem?_modify, if_neg hk.symm]

/-- The compare matches: the channel is enabled and its counter has reached its compare value (41_phase_timer.md
R121). -/
def matched (c : Chan) : Bool := c.cmEn && c.cnt == c.cmp

theorem matched_iff (c : Chan) : matched c = true ↔ c.cmEn = true ∧ c.cnt = c.cmp := by simp [matched]

/-- A tick of a channel is its count and then, if that count matches, its service (41_phase_timer.md R121). -/
theorem tickChan_eq (cfg : Config) (ch : Nat) (c : Chan) :
    tickChan cfg ch c =
      if matched (countChan cfg ch c) then serviceChan cfg ch (countChan cfg ch c) else countChan cfg ch c := rfl

/-- Settles O19: each channel's tick is its count, with the two steps of a service where it matches. -/
theorem tickCompletes : Obligations.TickCompletes := by
  intro s
  refine ⟨_, exec_tick s, rfl, List.length_mapIdx, fun ch c n hc hn => ?_⟩
  have hcount : countChan s.cfg ch c = { c with cnt := n } := by rw [hn]; rfl
  rw [withChans_chans, List.getElem?_mapIdx, hc, Option.map_some, tickChan_eq, hcount]
  simp only [matched_iff]
  split
  · next hm => exact congrArg some (serviceChan_enabled s.cfg ch { c with cnt := n } hm.1)
  · rfl

/-- The state in which every counter has gone up by one and nothing is served yet (41_phase_timer.md R121). -/
abbrev counted (s : State) : State := withChans s (s.chans.mapIdx (countChan s.cfg))

/-- The channels whose compare matches, in ascending order (41_phase_timer.md R121). -/
def matchedChans (s : State) : List Nat :=
  (List.range s.cfg.nCh).filter fun ch => (s.chans[ch]?.map matched).getD false

theorem mem_matchedChans_iff {s : State} {ch : Nat} {c : Chan} (hch : ch < s.cfg.nCh) (hc : s.chans[ch]? = some c) :
    ch ∈ matchedChans s ↔ matched c = true := by
  simp [matchedChans, hch, hc]

/-- A tick is every count, and then the services of the channels that match (41_phase_timer.md R121). -/
theorem mapIdx_tickChan_eq {s : State} (hlen : s.chans.length = s.cfg.nCh) :
    s.chans.mapIdx (tickChan s.cfg) = (counted s).chans.mapIdx fun ch c =>
      if ch ∈ matchedChans (counted s) then serviceChan s.cfg ch c else c := by
  rw [withChans_chans, List.mapIdx_mapIdx]
  refine List.mapIdx_eq_mapIdx_iff.2 fun ch hch => ?_
  have hc : (counted s).chans[ch]? = some (countChan s.cfg ch s.chans[ch]) := by simp [hch]
  simp only [Function.comp_apply, tickChan_eq, mem_matchedChans_iff (hlen ▸ hch) hc]

/-- `CM` in ascending order on the channels that match serves exactly those (41_phase_timer.md R121, R122). -/
theorem runOps_matchedChans {s : State} (hok : configOK s.cfg = true) (hlen : s.chans.length = s.cfg.nCh) :
    runOps ((matchedChans s).map fun ch => .cm (BitVec.ofNat 2 ch)) s =
      .next (withChans s (s.chans.mapIdx fun ch c => if ch ∈ matchedChans s then serviceChan s.cfg ch c else c)) := by
  have hmax := configOK_nCh_le hok
  refine runOps_services _ s (List.nodup_range.filter _) fun k hk => ?_
  have hlt := List.mem_range.1 (List.mem_of_mem_filter hk)
  omega

/-- Settles O18: the services after the counts touch each matching channel once. -/
theorem tickServesMatches : Obligations.TickServesMatches := by
  intro s u hok hlen hu
  obtain rfl : u = counted s := hu
  refine Eq.trans ?_ (runOps_matchedChans (s := counted s) hok (List.length_mapIdx.trans hlen)).symm
  rw [exec_tick, mapIdx_tickChan_eq hlen, withChans_withChans, withChans_cfg]

end Sys2Proof.Machine
end

section
/-! The counters (spec 41_phase_timer.md R121; 10_state.md R24) and the fire decisions (41_phase_timer.md R131) over
traces. -/

namespace Sys2Proof.Machine

/-- A service leaves the count, so a tick's counter is the counted one, match or not (41_phase_timer.md R121). -/
theorem tickChan_cnt (cfg : Config) (ch : Nat) (c : Chan) : (tickChan cfg ch c).cnt = (countChan cfg ch c).cnt := by
  rcases tickChan_cases cfg ch c with ht | ⟨_, ht⟩ <;> rw [ht]
  exact serviceChan_cnt _ _ _

/-- A counter of at most 16 bits goes up by one, modulo its width (41_phase_timer.md R121). -/
theorem countChan_cnt_toNat {cfg : Config} {ch : Nat} (hw : 2 ^ cfg.width ch ≤ 65536) (c : Chan) :
    (countChan cfg ch c).cnt.toNat = (c.cnt.toNat + 1) % 2 ^ cfg.width ch :=
  Nat.mod_eq_of_lt ((Nat.mod_lt _ (Nat.two_pow_pos _)).trans_le hw)

/-- A counter after `n` ticks (10_state.md R24). -/
theorem tickChan_iterate_cnt {cfg : Config} {ch : Nat} {c : Chan} (hw : 2 ^ cfg.width ch ≤ 65536)
    (hc : c.cnt.toNat < 2 ^ cfg.width ch) (n : Nat) :
    ((tickChan cfg ch)^[n] c).cnt.toNat = (c.cnt.toNat + n) % 2 ^ cfg.width ch := by
  induction n with
  | zero => exact (Nat.mod_eq_of_lt hc).symm
  | succ n ih =>
    rw [Function.iterate_succ_apply', tickChan_cnt, countChan_cnt_toNat hw, ih, Nat.mod_add_mod, Nat.add_assoc]

/-- Settles O20: a trace of ticks ticks each channel as many times. -/
theorem countersAreFreeRunning : Obligations.CountersAreFreeRunning := by
  intro s ch n c hok hch hc hcnt
  refine ⟨_, (tickChan s.cfg ch)^[n] c, runOps_ticksOps n s, ?_, ?_⟩
  · rw [withChans_chans, List.getElem?_mapIdx, hc, Option.map_some]
  · exact tickChan_iterate_cnt (configOK_width_bound hok hch).2 hcnt n

/-- A service sets no flag (41_phase_timer.md R122). -/
theorem serviceChan_zcp_imp {cfg : Config} {ch : Nat} {c : Chan} (h : (serviceChan cfg ch c).zcp = true) :
    c.zcp = true := by
  cases hen : c.cmEn with
  | false => rwa [serviceChan_disabled _ _ _ hen] at h
  | true => rw [serviceChan_zcp _ _ hen] at h; cases h

/-- Only an accepted zero-cross sets a flag (41_phase_timer.md R131). -/
theorem ChanMove.zcp_imp {i : Instr} {s : State} {ch : Nat} {c d : Chan} (hm : ChanMove i s ch c d)
    (hzc : i = .zc → anyPending s = true ∨ s.zcEn = false) (hset : d.zcp = true) : c.zcp = true := by
  cases hm with
  | same | init | request => exact hset
  | cross hi hz hp => simp [hi, hz, hp] at hzc
  | tick =>
    rcases tickChan_cases s.cfg ch c with ht | ⟨_, ht⟩ <;> rw [ht] at hset
    · exact hset
    · exact serviceChan_zcp_imp (c := countChan s.cfg ch c) hset
  | service => exact serviceChan_zcp_imp hset

end Sys2Proof.Machine

namespace Sys2Proof.Safety

open Sys2Proof.Machine

/-- The zero-cross flag of a channel; none where there is no such channel (10_state.md R20). -/
abbrev flagOf (ch : Nat) (s : State) : Option Bool := s.chans[ch]?.map Chan.zcp

/-- An operation that is no accepted zero-cross leaves a flag set only where it was (41_phase_timer.md R131). -/
theorem flagOf_set_imp {i : Instr} {s t : State} {ch : Nat} (he : exec i s = .next t)
    (hzc : i = .zc → anyPending s = true ∨ s.zcEn = false) (ht : flagOf ch t = some true) :
    flagOf ch s = some true := by
  obtain ⟨d, hd, hset⟩ := Option.map_eq_some_iff.1 ht
  by_cases h0 : i = .reset
  · subst h0
    cases he
    obtain ⟨-, rfl⟩ := resetBlock_getElem?_chans hd
    cases hset
  · obtain ⟨c, hc, hm⟩ := (exec_chansMoved he h0).each ch d hd
    exact Option.map_eq_some_iff.2 ⟨c, hc, hm.zcp_imp hzc hset⟩

/-- The operation is a fire decision of the channel: it clears the flag, and is no reset (41_phase_timer.md R131). -/
abbrev Decides (i : Instr) (ch : Nat) (s t : State) : Prop :=
  i ≠ .reset ∧ flagOf ch s = some true ∧ flagOf ch t = some false

section
variable {i : Instr} {l : List Instr} {s t : State} {ch : Nat}

theorem fireDecisions_cons_next (he : exec i s = .next t) :
    fireDecisions ch (i :: l) s = (if Decides i ch s t then 1 else 0) + fireDecisions ch l t := by
  simp only [fireDecisions, he]

theorem fireDecisions_cons_stop (he : ∀ t, exec i s ≠ .next t) : fireDecisions ch (i :: l) s = 0 := by
  cases h : exec i s with
  | next t => exact absurd h (he t)
  | fault | refused => simp only [fireDecisions, h]

theorem noAcceptedZc_cons_next (hl : noAcceptedZc (i :: l) s) (he : exec i s = .next t) :
    (i = .zc → anyPending s = true ∨ s.zcEn = false) ∧ noAcceptedZc l t := by
  simpa only [noAcceptedZc, he] using hl

end

/-- With its flag not set, a channel is not decided before the next accepted zero-cross (41_phase_timer.md R131). -/
theorem fireDecisions_eq_zero {ch : Nat} {l : List Instr} {s : State} (hl : noAcceptedZc l s)
    (hs : flagOf ch s ≠ some true) : fireDecisions ch l s = 0 := by
  induction l generalizing s with
  | nil => rfl
  | cons i l ih =>
    by_cases he : ∃ t, exec i s = .next t
    · obtain ⟨t, he⟩ := he
      obtain ⟨hzc, hrest⟩ := noAcceptedZc_cons_next hl he
      rw [fireDecisions_cons_next he, if_neg fun ⟨_, hset, _⟩ => hs hset, Nat.zero_add]
      exact ih hrest fun ht => hs (flagOf_set_imp he hzc ht)
    · exact fireDecisions_cons_stop (not_exists.1 he)

/-- Settles O22: a decision clears the flag, and without an accepted zero-cross a clear flag is not decided again. -/
theorem atMostOneFirePerZeroCross : Obligations.AtMostOneFirePerZeroCross := by
  intro l s ch hl
  induction l generalizing s with
  | nil => exact Nat.zero_le 1
  | cons i l ih =>
    by_cases he : ∃ t, exec i s = .next t
    · obtain ⟨t, he⟩ := he
      obtain ⟨-, hrest⟩ := noAcceptedZc_cons_next hl he
      rw [fireDecisions_cons_next he]
      by_cases hd : Decides i ch s t
      · have hclear : flagOf ch t ≠ some true := by simp [hd.2.2]
        rw [if_pos hd, fireDecisions_eq_zero hrest hclear]
      · rw [if_neg hd, Nat.zero_add]
        exact ih t hrest
    · exact (fireDecisions_cons_stop (not_exists.1 he)).trans_le (Nat.zero_le 1)

end Sys2Proof.Safety
end

section
/-! The serial receiver operation by operation (spec 42_serial_receiver.md R142 to R150): its clock edges while gated
off and while clocked, its byte boundary state by state, and an idle receiver over traces (R148, R159). -/

namespace Sys2Proof.Machine

/-! The start and stop conditions (42_serial_receiver.md R142, R143). -/

theorem exec_start_disabled {s : State} (b : Bool) (hen : s.ssrEn = false) : exec (.start b) s = .next s := by
  simp [exec, execStart, serveStart, hen]

/-- A start condition is served in every state (42_serial_receiver.md R142). -/
theorem exec_start (b : Bool) (s : State) : exec (.start b) s = .next (serveStart b s) := rfl

theorem exec_stop_irq {s : State} (hp : s.cfg.pStopIrq = true) : exec .stop s = exec (.start true) s := by
  simp [exec, execStop, execStart, hp]

theorem exec_stop_plain {s : State} (hp : s.cfg.pStopIrq = false) : exec .stop s = .next s := by
  simp [exec, execStop, hp]

/-- Settles O24: the equations of a disabled and of an enabled receiver. -/
theorem startService : Obligations.StartService :=
  fun _ high => ⟨exec_start_disabled high, exec_start_enabled high⟩

/-- Settles O25: under `P_STOP_IRQ = 1` a stop is `START 1`, which every state serves. -/
theorem stopCondition : Obligations.StopCondition :=
  fun s => ⟨fun hp => ⟨exec_stop_irq hp, _, (exec_stop_irq hp).trans (exec_start true s)⟩, exec_stop_plain⟩

/-! The clock edges while they do not reach the receiver (42_serial_receiver.md R144 to R146, R158). -/

section
variable {s : State} (hg : clocked s = false)
include hg

theorem exec_rise_gated (b : Bool) : exec (.rise b) s = .next s := by
  simp [exec, execRise, hg]

theorem exec_fall_gated : exec .fall s = .next s := by
  simp [exec, execFall, hg]

theorem exec_bb_gated : exec .bb s = .next s := by
  simp [exec, execBb, hg]

theorem wireByte_gated (v : Byte) : wireByte v s = .next s :=
  clockBits_gated v hg 8

end

/-- Settles O36: each symbol is its clocks, and none of them reaches the receiver. -/
theorem gatedReceiverIgnoresTheWire : Obligations.GatedReceiverIgnoresTheWire := by
  intro s d addr rw hoff
  have hg : clocked s = false := clocked_eq_false hoff
  exact ⟨wireByte_gated hg d, wireByte_gated hg _, wireByte_gated hg (addrByte addr rw), clockBit_gated true hg⟩

/-! The clock edges of a clocked receiver (42_serial_receiver.md R144, R145). -/

section
variable {s : State} (hc : clocked s = true)
include hc

theorem exec_rise_full (b : Bool) (h8 : 8 ≤ s.ssr.bitCnt.toNat) : exec (.rise b) s = .refused .riseWithoutFall := by
  simp [exec, execRise, hc, h8]

theorem exec_rise_shift (b : Bool) (h8 : s.ssr.bitCnt.toNat < 8) :
    exec (.rise b) s = .next (withSsr s (riseSsr b s.ssr)) := by
  simp [exec, execRise, hc, Nat.not_le.2 h8]

theorem exec_bb_clocked : exec .bb s = .next (serveBoundary s) := by
  simp [exec, execBb, hc]

theorem exec_fall_target (ht : s.ssr.bitCnt = s.ssr.bitTarget) : exec .fall s = .next (serveBoundary s) := by
  simp [exec, execFall, hc, ht]

end

theorem exec_fall_off_target {s : State} (ht : s.ssr.bitCnt ≠ s.ssr.bitTarget) : exec .fall s = .next s := by
  simp [exec, execFall, ht]

/-- A count below 8 goes up by one without a wrap (42_serial_receiver.md R144). -/
theorem riseSsr_bitCnt_toNat (b : Bool) {r : Ssr} (h8 : r.bitCnt.toNat < 8) :
    (riseSsr b r).bitCnt.toNat = r.bitCnt.toNat + 1 := by
  simp only [riseSsr, BitVec.toNat_add]
  change (r.bitCnt.toNat + 1) % 16 = _
  omega

/-- Settles O26: gated off, full, or one bit shifted in. -/
theorem riseShifts : Obligations.RiseShifts := by
  intro s b
  refine ⟨fun hoff => exec_rise_gated (clocked_eq_false hoff) b, fun hen hm h8 => ?_, fun hen hm h8 => ?_⟩
  · exact exec_rise_full (clocked_eq_true hen hm) b h8
  · exact ⟨_, exec_rise_shift (clocked_eq_true hen hm) b h8, rfl, riseSsr_sr_toNat b s.ssr,
      riseSsr_bitCnt_toNat b h8⟩

/-- Settles O27: at its target a falling edge serves the boundary `BB` serves; gated off or off its target it does
nothing. -/
theorem fallIsTheBoundary : Obligations.FallIsTheBoundary := by
  refine fun s => ⟨fun hen hm ht => ?_, ?_⟩
  · have hc : clocked s = true := clocked_eq_true hen hm
    exact ⟨(exec_fall_target hc ht).trans (exec_bb_clocked hc).symm, _, exec_fall_target hc ht⟩
  · rintro (hen | hm | ht)
    · exact exec_fall_gated (clocked_eq_false (.inl hen))
    · exact exec_fall_gated (clocked_eq_false (.inr hm))
    · exact exec_fall_off_target ht

/-! The byte boundary as an operation (42_serial_receiver.md R146 to R150). -/

/-- After a termination the boundary of an acknowledge aborts (42_serial_receiver.md R149). -/
theorem serveBoundary_abort {s : State} (hs : s.ssr.state = .recvDataWait) (hr : s.ssr.rxStatus = .terminated) :
    serveBoundary s = withSsr s (waitAbortSsr s.ssr) := by
  simp [serveBoundary, bbWait, hs, hr]

/-- Settles O28: the address in `sr` is compared, unless the clock is gated off. -/
theorem boundaryOfAddress : Obligations.BoundaryOfAddress := by
  refine fun s => ⟨fun hoff => exec_bb_gated (clocked_eq_false hoff), fun hen hm hst => ?_⟩
  have hbb := exec_bb_clocked (clocked_eq_true hen hm)
  refine ⟨fun ha => ?_, fun ha => ?_⟩
  · exact hbb.trans (congrArg _ (serveBoundary_addrMatch hst ((addressed_iff _ _).2 ha)))
  · exact hbb.trans (congrArg _ (serveBoundary_addrMismatch hst (mt (addressed_iff _ _).1 ha)))

/-- Settles O29: the two arms of the boundary that ends an acknowledge. -/
theorem boundaryOfAcknowledge : Obligations.BoundaryOfAcknowledge := by
  intro s hen hm hst
  have hbb := exec_bb_clocked (clocked_eq_true hen hm)
  exact ⟨fun hr => hbb.trans (congrArg _ (serveBoundary_abort hst hr)),
    fun hr => hbb.trans (congrArg _ (serveBoundary_release hst hr))⟩

/-- Settles O30: the two arms of the boundary that ends a data byte. -/
theorem boundaryOfData : Obligations.BoundaryOfData := by
  intro s hen hm hst
  have hbb := exec_bb_clocked (clocked_eq_true hen hm)
  exact ⟨fun hr => hbb.trans (congrArg _ (serveBoundary_latch hst hr)),
    fun hr => hbb.trans (congrArg _ (serveBoundary_drop hst hr))⟩

/-! An idle receiver over traces (42_serial_receiver.md R142, R148, R159). -/

/-- The receiver `q` is idle, and since `r` nothing was shifted in or latched and no byte became received. -/
structure IdleSince (r q : Ssr) : Prop where
  mode : q.mode = .startOnly
  sr : q.sr = r.sr
  rxData : q.rxData = r.rxData
  sdaDrive : q.sdaDrive = false
  received : q.rxStatus = .received → r.rxStatus = .received

/-- The host's poll leaves no byte received (43_host_consumer.md R174). -/
theorem statusTaken_ne_received (st : RxStatus) : statusTaken st ≠ .received := by
  cases st <;> simp [statusTaken]

section
variable {r : Ssr}

/-- A start that was a stop leaves the receiver idle (42_serial_receiver.md R159). -/
theorem IdleSince.startTrue {q : Ssr} (h : IdleSince r q) : IdleSince r (startSsr true q) :=
  ⟨rfl, h.sr, h.rxData, rfl, fun hr => RxStatus.noConfusion hr⟩

theorem IdleSince.pollLatch {s : State} (h : IdleSince r s.ssr) : IdleSince r (pollLatch s).ssr :=
  ⟨h.mode, h.sr, h.rxData, h.sdaDrive, fun hr => absurd hr (statusTaken_ne_received _)⟩

/-- What answers the same state leaves the receiver idle. -/
theorem IdleSince.of_eq_self {o : Result} {s t : State} (h : IdleSince r s.ssr) (hself : o = .next s)
    (ho : o = .next t) : IdleSince r t.ssr := by
  cases hself.symm.trans ho
  exact h

/-- Only `START 0` and `RESET` end an idle receiver's rest: the clock does not reach it, a poll takes what was there,
and the host's operations touch nothing of it (42_serial_receiver.md R142, R148). -/
theorem exec_idleSince {i : Instr} {s t : State} (h : IdleSince r s.ssr) (h0 : i ≠ .reset) (h1 : i ≠ .start false)
    (he : exec i s = .next t) : IdleSince r t.ssr := by
  have hg : clocked s = false := clocked_eq_false (.inr h.mode)
  cases i with
  | reset => exact absurd rfl h0
  | init | zc | tick | cm | reqwr => rwa [exec_ssr he h0 rfl]
  | start b =>
    cases b with
    | false => exact absurd rfl h1
    | true =>
      rcases execStart_next he with ⟨_, rfl⟩ | ⟨_, rfl⟩
      · exact h
      · exact h.startTrue
  | stop =>
    rcases execStop_next he with ⟨_, rfl⟩ | ⟨_, _, rfl⟩
    · exact h
    · exact h.startTrue
  | rise b => exact h.of_eq_self (exec_rise_gated hg b) he
  | fall => exact h.of_eq_self (exec_fall_gated hg) he
  | bb => exact h.of_eq_self (exec_bb_gated hg) he
  | rxtake => cases he; exact h.pollLatch
  | rd n =>
    rcases memRead_next he with ⟨_, rfl⟩ | ⟨_, _, _, rfl⟩
    · exact h.pollLatch
    · exact h
  | reservedD | reservedE | reservedF => cases he
  | wireAddrMatch | wireAddrMismatch | wireData => exact h.of_eq_self (wireByte_gated hg _) he
  | wireAck => exact h.of_eq_self (clockBit_gated true hg) he

end

/-- Settles O31: being idle since the trace began is kept by each of its operations. -/
theorem idleUntilStart : Obligations.IdleUntilStart := by
  intro l s t hl hm hd hrun
  have hstart : IdleSince s.ssr s.ssr := ⟨hm, rfl, rfl, hd, id⟩
  have hend : IdleSince s.ssr t.ssr := runOps_induction (P := fun u => IdleSince s.ssr u.ssr) l s t
    (fun i hi _ _ h he => exec_idleSince h (hl i hi).1 (hl i hi).2 he) hstart hrun
  exact ⟨hend.mode, hend.sr, hend.rxData, hend.sdaDrive, hend.received⟩

end Sys2Proof.Machine
end

section
/-! The host's operations (spec 43_host_consumer.md R171, R173, R174): `INIT`, the write port of a request, and the
poll of the receive latch. -/

namespace Sys2Proof.Machine

/-- The state after `INIT`: every enable set, the line history loaded from the pins (43_host_consumer.md R171). -/
def afterInit (s : State) : State :=
  { s with
    zcEn := true
    ssrEn := true
    chans := s.chans.map fun c => { c with cmEn := true }
    front := { s.front with
      zcPrev := s.front.zcIn, sclPrev := s.front.scl, sdaPrev := s.front.sdaIn, startPending := false } }

theorem exec_init (s : State) : exec .init s = .next (afterInit s) := rfl

theorem afterInit_getElem?_chans {s : State} {ch : Nat} {c : Chan} (h : s.chans[ch]? = some c) :
    (afterInit s).chans[ch]? = some { c with cmEn := true } := by
  simp [afterInit, h]

theorem afterInit_afterInit (s : State) : afterInit (afterInit s) = afterInit s := by
  simp [afterInit]

/-- Settles O14: what is enabled and loaded once is the same when it is enabled and loaded again. -/
theorem initEnables : Obligations.InitEnables := fun s =>
  ⟨afterInit s, exec_init s, rfl, rfl, List.length_map _, fun _ _ => afterInit_getElem?_chans, rfl, rfl,
    (exec_init _).trans (congrArg _ (afterInit_afterInit s))⟩

/-- The state with a value stored by the write port of a channel's request (43_host_consumer.md R173). -/
def withRequest (s : State) (ch v : Nat) : State :=
  withChans s (s.chans.modify ch fun c => { c with requested := requestValue v })

section
variable {s : State} {ch : Nat} (v : Nat)

theorem writeRequest_of_lt (h : ch < s.chans.length) : writeRequest s ch v = .next (withRequest s ch v) :=
  if_pos h

theorem withRequest_getElem?_self {c : Chan} (h : s.chans[ch]? = some c) :
    (withRequest s ch v).chans[ch]? = some { c with requested := requestValue v } := by
  rw [withRequest, withChans_chans, getElem?_modify, if_pos rfl, h, Option.map_some]

theorem withRequest_getElem?_of_ne {k : Nat} (h : k ≠ ch) : (withRequest s ch v).chans[k]? = s.chans[k]? := by
  rw [withRequest, withChans_chans, getElem?_modify, if_neg h.symm]

end

/-- Settles O38: the write port of a channel that exists. -/
theorem requestWrite : Obligations.RequestWrite := by
  intro s ch v c hc
  obtain ⟨hlt, -⟩ := List.getElem?_eq_some_iff.1 hc
  exact ⟨_, requestValue v.toNat, writeRequest_of_lt _ hlt, rfl, List.length_modify .., requestValue_toNat _,
    withRequest_getElem?_self _ hc, fun _ => withRequest_getElem?_of_ne _⟩

section
variable {s : State}

theorem takeByte_of_received (h : s.ssr.rxStatus = .received) :
    takeByte s = withSsr s { s.ssr with rxStatus := .pending } := by
  rw [takeByte, h, statusTaken]

theorem statusTaken_of_ne_received {st : RxStatus} (h : st ≠ .received) : statusTaken st = st := by
  cases st with
  | received => exact absurd rfl h
  | pending | terminated => rfl

/-- Where no byte waits, the poll takes none (43_host_consumer.md R174). -/
theorem takeByte_of_ne_received (h : s.ssr.rxStatus ≠ .received) : takeByte s = s := by
  rw [takeByte, statusTaken_of_ne_received h, withSsr_self]

/-- The value of a poll, whole in its 16 bits, is returned (43_host_consumer.md R174). -/
theorem pollLatch_eq_returnRead {v : RegData}
    (hv : v.toNat = s.ssr.rxData.toNat + 256 * rxStatusNum s.ssr.rxStatus) :
    pollLatch s = returnRead (takeByte s) 6 v := by
  have hword : rxTakeWord s = v.toNat := by rw [rxTakeWord, hv]; omega
  rw [pollLatch, hword, BitVec.ofNat_toNat, BitVec.setWidth_eq]

end

/-- Settles O39: a poll returns its word, and takes the byte where one was received. -/
theorem receiveTake : Obligations.ReceiveTake := by
  intro s v hv
  have hpoll : exec .rxtake s = .next (returnRead (takeByte s) 6 v) := congrArg _ (pollLatch_eq_returnRead hv)
  refine ⟨rfl, fun hr => ?_, fun hr => ?_⟩
  · rw [hpoll, takeByte_of_received hr]
    rfl
  · rw [hpoll, takeByte_of_ne_received hr]
    rfl

end Sys2Proof.Machine
end

section
/-! The host's process (spec 43_host_consumer.md R175, R177, R178): the turns of `receive_packet`, and what the
consumer loop does with the packet it ends with. -/

namespace Sys2Proof.Machine

section
variable {s : State}

theorem hostStep_of_running (h : s.host.running = true) : hostStep s = .next (hostPoll s) :=
  if_pos h

/-- Once its call has returned, the consumer finishes the packet and calls again (43_host_consumer.md R177). -/
theorem hostStep_of_returned (hc : s.host.consumer = true) (hr : s.host.running = false) :
    hostStep s = andThen (finishPacket s) callAgain := by
  rw [hostStep, if_neg (Bool.eq_false_iff.1 hr), if_pos hc]

theorem finishPacket_of_full {i d : Byte} (h : s.host.buf = [i, d]) : finishPacket s = applyPacket i d s := by
  simp only [finishPacket, h]

theorem finishPacket_of_short (h : s.host.buf.length < 2) :
    finishPacket s = .next (raise s (.shortPacket s.host.buf.length)) := by
  unfold finishPacket
  split
  · next hb => simp [hb] at h
  · rfl

theorem applyPacket_of_le {i : Byte} (d : Byte) (h : s.cfg.nCh ≤ i.toNat) :
    applyPacket i d s = .next (raise s (.badIndex i)) :=
  if_pos h

theorem applyPacket_of_lt {i : Byte} (d : Byte) (h : i.toNat < s.cfg.nCh) (hlen : s.chans.length = s.cfg.nCh) :
    applyPacket i d s = .next (withRequest s i.toNat (sentinelClamp s.cfg d.toNat)) := by
  rw [applyPacket, if_neg h.not_ge, writeRequest_of_lt _ (hlen ▸ h)]

end

/-- The sentinels of a well-formed record are brightnesses, so the request holds the clamped value whole
(43_host_consumer.md R178; 00_scope.md R8). -/
theorem sentinelClamp_le {cfg : Config} (h : configOK cfg = true) (d : Nat) : sentinelClamp cfg d ≤ 100 := by
  obtain ⟨-, ⟨-, hmin, hmax⟩, -⟩ := (rangesOK_iff cfg).1 (configOK_rangesOK h)
  unfold sentinelClamp clamp
  omega

/-- Settles O42: the call, and a poll of the latch for each status it can return. -/
theorem receivePacketPolls : Obligations.ReceivePacketPolls := by
  intro s rest hok hp
  refine ⟨fun size ht => ?_, fun v ht hrun hv => ?_⟩
  · exact ⟨_, step_eq_serveInput hok hp ht, rfl, rfl, rfl, rfl, decide_eq_true_iff⟩
  · have hstep : step s = .next (withHost (returnRead (takeByte (popInput s rest)) 6 v)
        (hostAfterPoll s.host s.ssr.rxStatus s.ssr.rxData)) := by
      rw [step_eq_serveInput hok hp ht, serveInput, hostStep_of_running (s := popInput s rest) hrun, hostPoll,
        pollLatch_eq_returnRead (s := popInput s rest) hv]
      rfl
    refine ⟨fun hr => ?_, fun hr => ?_, fun hr => ?_⟩
    · rw [hstep, takeByte_of_received (s := popInput s rest) hr, hr]
      rfl
    · rw [hstep, takeByte_of_ne_received (s := popInput s rest) (by simp [hr]), hr]
      rfl
    · rw [hstep, takeByte_of_ne_received (s := popInput s rest) (by simp [hr]), hr]
      rfl

/-- Settles O43: the call is for `PKT_SIZE` bytes, and a record the model runs has two. -/
theorem consumerCallsReceive : Obligations.ConsumerCallsReceive := by
  intro s rest hok hp ht
  have hsize : (popInput s rest).cfg.pktSize = 2 := ((recordOK_iff _).1 hok).2
  rw [step_eq_serveInput hok hp ht, serveInput, enterConsumer, hsize]
  rfl

/-- With its packet returned, the step finishes it on the popped state and calls again (43_host_consumer.md R177). -/
theorem step_consumer_returned {s : State} {rest : List Input} (hok : recordOK s.cfg = true) (hp : s.ports = [])
    (ht : s.trace = .hostStep :: rest) (hc : s.host.consumer = true) (hr : s.host.running = false) :
    step s = andThen (finishPacket (popInput s rest)) callAgain :=
  (step_eq_serveInput hok hp ht).trans (hostStep_of_returned (s := popInput s rest) hc hr)

/-- Settles O44: a full packet is applied, to a channel that exists or to none. -/
theorem consumerAppliesPackets : Obligations.ConsumerAppliesPackets := by
  intro s rest i d hok hlen hp ht hc hr hb
  have hstep : step s = andThen (applyPacket i d (popInput s rest)) callAgain := by
    rw [step_consumer_returned hok hp ht hc hr, finishPacket_of_full (s := popInput s rest) hb]
  refine ⟨fun hi => ?_, fun c hch => ?_⟩
  · rw [hstep, applyPacket_of_le (s := popInput s rest) d hi]
    rfl
  · obtain ⟨hlt, -⟩ := List.getElem?_eq_some_iff.1 hch
    rw [applyPacket_of_lt (s := popInput s rest) d (hlen ▸ hlt) hlen] at hstep
    have hq : (requestValue (sentinelClamp s.cfg d.toNat)).toNat = sentinelClamp s.cfg d.toNat := by
      rw [requestValue_toNat, min_eq_left (sentinelClamp_le ((recordOK_iff _).1 hok).1 _)]
    exact ⟨_, _, hstep, rfl, hq, withRequest_getElem?_self (s := popInput s rest) _ hch,
      fun _ => withRequest_getElem?_of_ne (s := popInput s rest) _⟩

/-- Settles O45: a short packet is recorded, and nothing is written before the next call. -/
theorem consumerDropsShortPackets : Obligations.ConsumerDropsShortPackets := by
  intro s rest hok hp ht hc hr hb
  rw [step_consumer_returned hok hp ht hc hr, finishPacket_of_short (s := popInput s rest) hb]
  rfl

end Sys2Proof.Machine
end

section
/-! The refusal of a parameter record (spec 00_scope.md R8; 93_implementation_defined.md U13): a step refuses a record
before anything runs, and what runs gives no such reason. -/

namespace Sys2Proof.Machine

/-- A reason that is about the parameter record (00_scope.md R8; 43_host_consumer.md R177). -/
def refusesRecord : Refusal → Bool
  | .configNotOK | .cmpOverflow _ | .noPacketLayout => true
  | .notModelled _ | .illegalWord _ _ | .reservedOp _ | .noSuchChannel _ | .noSuchRegister _ | .readOnlyRegister _
  | .riseWithoutFall | .bothLinesChange => false

/-- The answer is no refusal for the parameter record. -/
def RefusesNoRecord (o : Result) : Prop := ∀ r, o = .refused r → refusesRecord r = false

theorem RefusesNoRecord.ne_refused {o : Result} {r : Refusal} (ho : RefusesNoRecord o)
    (hr : refusesRecord r = true) : o ≠ .refused r := fun h => by
  simp [ho r h] at hr

theorem refusesNoRecord_next (s : State) : RefusesNoRecord (.next s) := nofun

theorem refusesNoRecord_refused {r : Refusal} (h : refusesRecord r = false) : RefusesNoRecord (.refused r) := by
  rintro _ ⟨⟩
  exact h

theorem RefusesNoRecord.ite {p : Prop} [Decidable p] {a b : Result} (ha : RefusesNoRecord a) (hb : RefusesNoRecord b) :
    RefusesNoRecord (if p then a else b) := by
  split
  · exact ha
  · exact hb

theorem RefusesNoRecord.andThen {o : Result} {f : State → Result} (ho : RefusesNoRecord o)
    (hf : ∀ s, RefusesNoRecord (f s)) : RefusesNoRecord (andThen o f) := by
  cases o with
  | next s => exact hf s
  | fault r => exact nofun
  | refused r => exact ho

theorem refusesNoRecord_writeRequest (s : State) (ch v : Nat) : RefusesNoRecord (writeRequest s ch v) :=
  .ite (refusesNoRecord_next _) (refusesNoRecord_refused rfl)

theorem refusesNoRecord_memRead (n : RegNum) (s : State) : RefusesNoRecord (memRead n s) := by
  refine .ite (refusesNoRecord_next _) ?_
  split
  · exact refusesNoRecord_next _
  · exact refusesNoRecord_refused rfl

theorem refusesNoRecord_memWrite (n : RegNum) (v : RegData) (s : State) : RefusesNoRecord (memWrite n v s) := by
  unfold memWrite
  split
  · exact refusesNoRecord_refused rfl
  · exact refusesNoRecord_writeRequest _ _ _
  · exact refusesNoRecord_refused rfl

theorem refusesNoRecord_clockBit (b : Bool) (s : State) : RefusesNoRecord (clockBit b s) :=
  .andThen (.ite (.ite (refusesNoRecord_refused rfl) (refusesNoRecord_next _)) (refusesNoRecord_next _))
    fun _ => .ite (refusesNoRecord_next _) (refusesNoRecord_next _)

theorem refusesNoRecord_clockBits (v : Byte) (k : Nat) (s : State) : RefusesNoRecord (clockBits v k s) := by
  induction k generalizing s with
  | zero => exact refusesNoRecord_next s
  | succ k ih => exact .andThen (refusesNoRecord_clockBit _ s) ih

/-- No instruction asks for the parameter record's form (00_scope.md R8; log 14). -/
theorem refusesNoRecord_exec (i : Instr) (s : State) : RefusesNoRecord (exec i s) := by
  cases i with
  | reset | init | tick | start | rxtake => exact refusesNoRecord_next _
  | zc => exact .ite (.ite (refusesNoRecord_next _) (refusesNoRecord_next _)) (refusesNoRecord_next _)
  | stop | fall | bb => exact .ite (refusesNoRecord_next _) (refusesNoRecord_next _)
  | cm => exact .ite (refusesNoRecord_next _) (refusesNoRecord_refused rfl)
  | rise => exact .ite (.ite (refusesNoRecord_refused rfl) (refusesNoRecord_next _)) (refusesNoRecord_next _)
  | reqwr => exact refusesNoRecord_writeRequest _ _ _
  | rd n => exact refusesNoRecord_memRead n s
  | reservedD | reservedE | reservedF => exact refusesNoRecord_refused rfl
  | wireAddrMatch | wireAddrMismatch | wireData => exact refusesNoRecord_clockBits _ 8 s
  | wireAck => exact refusesNoRecord_clockBit true s

theorem refusesNoRecord_servePort (e : PortEvent) (s : State) : RefusesNoRecord (servePort e s) := by
  unfold servePort
  split
  · exact refusesNoRecord_exec _ _
  · exact refusesNoRecord_next _

theorem refusesNoRecord_finishPacket (s : State) : RefusesNoRecord (finishPacket s) := by
  unfold finishPacket
  split
  · exact .ite (refusesNoRecord_next _) (refusesNoRecord_writeRequest _ _ _)
  · exact refusesNoRecord_next _

theorem refusesNoRecord_serveInput (x : Input) (position : Nat) (s : State) :
    RefusesNoRecord (serveInput x position s) := by
  cases x with
  | code c =>
    simp only [serveInput, serveCode]
    split
    · exact refusesNoRecord_exec _ _
    · exact refusesNoRecord_refused rfl
  | sample p => exact .ite (refusesNoRecord_refused rfl) (refusesNoRecord_next _)
  | hostRead n => exact refusesNoRecord_memRead n s
  | hostWrite n v => exact refusesNoRecord_memWrite n v s
  | recvPacket | consumer => exact refusesNoRecord_next _
  | hostStep =>
    exact .ite (refusesNoRecord_next _)
      (.ite (.andThen (refusesNoRecord_finishPacket s) fun _ => refusesNoRecord_next _) (refusesNoRecord_next _))

/-- A step refuses for the parameter record exactly what `configRefusal` names (00_scope.md R8; log 14). -/
theorem step_refused_record_iff {s : State} {r : Refusal} (hr : refusesRecord r = true) :
    step s = .refused r ↔ configRefusal s.cfg = some r := by
  unfold step
  split
  · next q hq => simp [hq]
  · next hn =>
    simp only [hn, reduceCtorEq, iff_false]
    split
    · exact (refusesNoRecord_servePort _ _).ne_refused hr
    · split
      · exact nofun
      · exact (refusesNoRecord_serveInput _ _ _).ne_refused hr

/-- Settles O60: the packet size is the one reason left for a well-formed record. -/
theorem packetLayoutRequired : Obligations.PacketLayoutRequired := by
  intro s hok
  rw [step_refused_record_iff rfl]
  refine ⟨fun h h2 => ?_, configRefusal_packet hok⟩
  have hnone : configRefusal s.cfg = none := (configRefusal_eq_none_iff _).2 ((recordOK_iff _).2 ⟨hok, h2⟩)
  simp [hnone] at h

end Sys2Proof.Machine
end

section
/-! The enable of each event source (spec 60_exceptions.md R193, R194, R196): an event without its enable is ignored
and not remembered. -/

namespace Sys2Proof.Machine

/-- The enable of a compare match is the one of its channel (60_exceptions.md R193). -/
theorem sourceEnabled_compareMatch {s : State} {ch : BitVec 2} {c : Chan} (hc : s.chans[ch.toNat]? = some c) :
    sourceEnabled s (.compareMatch ch) = c.cmEn := by
  simp [sourceEnabled, hc]

/-- Settles O50: the service of each source, with its enable clear, leaves the state as it was. -/
theorem disabledEventsAreIgnored : Obligations.DisabledEventsAreIgnored := by
  intro s src sample hoff hch
  cases src with
  | zeroCross => exact exec_zc_disabled hoff
  | compareMatch ch =>
    have hc := List.getElem?_eq_getElem (hch ch rfl)
    exact (compareService s ch _ hc).1 ((sourceEnabled_compareMatch hc).symm.trans hoff)
  | serialStart => exact exec_start_disabled sample hoff
  | serialOverflow => exact exec_bb_gated hoff

end Sys2Proof.Machine
end

section
/-! The block before `INIT` (spec 70_reset_and_hazards.md R221): its sources disabled, no event is served. -/

namespace Sys2Proof.Machine

/-- A stop is at most a start-condition interrupt, which a disabled receiver ignores (42_serial_receiver.md R143,
R158). -/
theorem exec_stop_disabled {s : State} (hen : s.ssrEn = false) : exec .stop s = .next s := by
  cases hp : s.cfg.pStopIrq with
  | true => exact (exec_stop_irq hp).trans (exec_start_disabled true hen)
  | false => exact exec_stop_plain hp

/-- A compare match of a disabled channel is not served (41_phase_timer.md R133). -/
theorem exec_cm_disabled {s : State} {ch : BitVec 2} (hlt : ch.toNat < s.chans.length)
    (hen : s.chans[ch.toNat].cmEn = false) : exec (.cm ch) s = .next s :=
  (compareService s ch _ (List.getElem?_eq_getElem hlt)).1 hen

/-- A disabled channel only counts its ticks (41_phase_timer.md R121, R133). -/
theorem tickChan_disabled (cfg : Config) (ch : Nat) {c : Chan} (hen : c.cmEn = false) :
    tickChan cfg ch c = countChan cfg ch c := by
  rcases tickChan_cases cfg ch c with hcount | ⟨hon, -⟩
  · exact hcount
  · simp [hen] at hon

theorem exec_tick_disabled {s : State} (hen : ∀ c ∈ s.chans, c.cmEn = false) : exec .tick s = .next (counted s) := by
  have hcount : s.chans.mapIdx (tickChan s.cfg) = s.chans.mapIdx (countChan s.cfg) :=
    List.mapIdx_eq_mapIdx_iff.2 fun ch hch => tickChan_disabled s.cfg ch (hen _ (List.getElem_mem hch))
  rw [exec_tick, hcount]

/-- Settles O51: each event is one its disabled source ignores, and a tick of disabled channels is their count. -/
theorem nothingServedBeforeInit : Obligations.NothingServedBeforeInit := by
  intro s hzc hssr hcm
  have hgated : clocked s = false := clocked_eq_false (.inl hssr)
  refine ⟨fun i hi => ?_, exec_tick_disabled hcm⟩
  rcases hi with rfl | ⟨ch, rfl, hlt⟩ | ⟨b, rfl⟩ | rfl | ⟨b, rfl⟩ | rfl | rfl
  · exact exec_zc_disabled hzc
  · exact exec_cm_disabled hlt (hcm _ (List.getElem_mem hlt))
  · exact exec_start_disabled b hssr
  · exact exec_stop_disabled hssr
  · exact exec_rise_gated hgated b
  · exact exec_fall_gated hgated
  · exact exec_bb_gated hgated

end Sys2Proof.Machine
end

section
/-! The boot sequence (spec 70_reset_and_hazards.md R222, R223): reset, `INIT`, and a write of the lower sentinel to
every request. -/

namespace Sys2Proof.Machine

/-- `REQWR` stores one value at each channel of a list, and at no other (43_host_consumer.md R173). -/
theorem runOps_requests (v : Byte) (l : List Nat) (s : State) (hl : ∀ k ∈ l, k < s.chans.length ∧ k < 4) :
    runOps (l.map fun ch => .reqwr (BitVec.ofNat 2 ch) v) s =
      .next (withChans s (s.chans.mapIdx fun k c =>
        if k ∈ l then { c with requested := requestValue v.toNat } else c)) := by
  induction l generalizing s with
  | nil =>
    have hid : s.chans.mapIdx (fun _ c => c) = s.chans := List.ext_getElem? fun j => by simp
    simp [runOps, hid]
  | cons a l ih =>
    obtain ⟨hlt, ha4⟩ := hl a List.mem_cons_self
    have hnum : (BitVec.ofNat 2 a).toNat = a := Nat.mod_eq_of_lt ha4
    have hexec : exec (.reqwr (BitVec.ofNat 2 a) v) s = .next (withRequest s a v.toNat) := by
      rw [exec, execReqwr, hnum, writeRequest_of_lt _ hlt]
    have hrest : ∀ k ∈ l, k < (withRequest s a v.toNat).chans.length ∧ k < 4 := fun k hk => by
      simpa [withRequest] using hl k (List.mem_cons_of_mem a hk)
    rw [List.map_cons, runOps_cons_of_exec hexec, ih _ hrest, withRequest, withChans_withChans, withChans_chans]
    congr 2
    refine List.ext_getElem? fun j => ?_
    rw [List.getElem?_mapIdx, getElem?_modify, List.getElem?_mapIdx]
    by_cases hj : a = j
    · subst hj
      cases s.chans[a]? <;> simp
    · simp [hj, Ne.symm hj]

/-- A channel after the boot sequence (70_reset_and_hazards.md R222, R223). -/
def bootedChan (cfg : Config) (ch : Nat) : Chan :=
  { Chan.atReset cfg ch with cmEn := true, requested := requestValue (cfg.minPct - 1) }

/-- The state after the boot sequence (70_reset_and_hazards.md R222, R223). -/
def booted (s : State) : State :=
  withChans (afterInit (resetBlock s)) ((List.range s.cfg.nCh).map (bootedChan s.cfg))

/-- The lower sentinel of a well-formed record is a brightness below `MIN` (00_scope.md R8). -/
theorem configOK_minPct {cfg : Config} (h : configOK cfg = true) : 1 ≤ cfg.minPct ∧ cfg.minPct ≤ 98 := by
  obtain ⟨-, ⟨hmin, hlt, hmax⟩, -⟩ := (rangesOK_iff cfg).1 (configOK_rangesOK h)
  omega

/-- The boot sequence completes from every state (70_reset_and_hazards.md R222). -/
theorem runOps_bootOps {s : State} (hok : configOK s.cfg = true) : runOps (bootOps s.cfg) s = .next (booted s) := by
  have hn := configOK_nCh_le hok
  have hv : (BitVec.ofNat 8 (s.cfg.minPct - 1)).toNat = s.cfg.minPct - 1 :=
    Nat.mod_eq_of_lt (by have := configOK_minPct hok; omega)
  have hchans : (afterInit (resetBlock s)).chans =
      (List.range s.cfg.nCh).map fun ch => { Chan.atReset s.cfg ch with cmEn := true } := List.map_map
  rw [bootOps, runOps_cons_of_exec (t := resetBlock s) rfl, runOps_cons_of_exec (exec_init _), runOps_requests]
  case hl =>
    intro k hk
    rw [hchans, List.length_map, List.length_range]
    have := List.mem_range.1 hk
    omega
  rw [hchans, hv]
  refine congrArg (fun cs => Host.Outcome.next (withChans (afterInit (resetBlock s)) cs)) ?_
  refine List.ext_getElem (by simp) fun j hj _ => ?_
  have hlt : j < s.cfg.nCh := by simpa using hj
  simp [bootedChan, hlt]

/-- Settles O46: the sequence ends in the booted state, whose requests hold the sentinel whole. -/
theorem bootReachesTheLowerRail : Obligations.BootReachesTheLowerRail := by
  intro s hok
  refine ⟨booted s, runOps_bootOps hok, rfl, rfl, rfl, rfl, by simp [booted], fun c hc => ?_⟩
  obtain ⟨ch, -, rfl⟩ := List.mem_map.1 hc
  refine ⟨?_, rfl, rfl, rfl, rfl⟩
  have hmin := configOK_minPct hok
  rw [bootedChan, requestValue_toNat]
  omega

end Sys2Proof.Machine
end
